-- ==== Sys2Proof/Word.lean ====
section
/-! DEFINITION. Word.lean: the widths the spec names (00_scope.md R10, R11; 30_encoding.md R91). Every value of this
machine is unsigned. -/

namespace Sys2Proof

/-- A general register, a memory cell, a timer, an 8-bit immediate (R20, R33, R60, R91 `nn`). -/
abbrev Byte := BitVec 8

/-- An instruction word, the program counter, the index register, a return address (R24, R26, R30, R90). -/
abbrev Word := BitVec 16

/-- A 4-bit field: a register index `x` or `y`, a row count `n`, a keyboard slot (R91, R29). -/
abbrev Nibble := BitVec 4

/-- A 12-bit address field `nnn` (R91). -/
abbrev Addr12 := BitVec 12

/-- Index of the flag register VF (R22). -/
abbrev VF : Nibble := 15#4

end Sys2Proof
end

