-- ==== Sys2Proof/Syntax.lean ====
section
/-! DEFINITION. Syntax.lean: one constructor per row of spec/opcode_table.json, its arguments the row's fields in the
row's order (30_encoding.md R91, R93, R95). -/

namespace Sys2Proof

/-- The 34 instructions. Field widths are the encoding's: `x`, `y`, `n` 4 bits, `nn` 8, `nnn` 12 (R91). -/
inductive Instr where
  /-- `00E0` CLS (R140). -/
  | cls
  /-- `00EE` RET (R160). -/
  | ret
  /-- `1nnn` JP nnn (R161). -/
  | jp (nnn : Addr12)
  /-- `2nnn` CALL nnn (R162). -/
  | call (nnn : Addr12)
  /-- `3xnn` SE Vx, nn (R180). -/
  | seImm (x : Nibble) (nn : Byte)
  /-- `4xnn` SNE Vx, nn (R181). -/
  | sneImm (x : Nibble) (nn : Byte)
  /-- `5xy0` SE Vx, Vy (R182). -/
  | seReg (x y : Nibble)
  /-- `6xnn` LD Vx, nn (R200). -/
  | ldImm (x : Nibble) (nn : Byte)
  /-- `7xnn` ADD Vx, nn (R201). -/
  | addImm (x : Nibble) (nn : Byte)
  /-- `8xy0` LD Vx, Vy (R202). -/
  | ldReg (x y : Nibble)
  /-- `8xy1` OR Vx, Vy (R203). -/
  | orReg (x y : Nibble)
  /-- `8xy2` AND Vx, Vy (R204). -/
  | andReg (x y : Nibble)
  /-- `8xy3` XOR Vx, Vy (R205). -/
  | xorReg (x y : Nibble)
  /-- `8xy4` ADD Vx, Vy (R206). -/
  | addReg (x y : Nibble)
  /-- `8xy5` SUB Vx, Vy (R207). -/
  | sub (x y : Nibble)
  /-- `8xy6` SHR Vx, Vy; `y` is always decoded, read only under `shift_VX_is_VY` (R93, R208). -/
  | shr (x y : Nibble)
  /-- `8xy7` SUBN Vx, Vy (R209). -/
  | subn (x y : Nibble)
  /-- `8xyE` SHL Vx, Vy (R210). -/
  | shl (x y : Nibble)
  /-- `9xy0` SNE Vx, Vy (R183). -/
  | sneReg (x y : Nibble)
  /-- `Annn` LD I, nnn (R230). -/
  | ldI (nnn : Addr12)
  /-- `Bnnn` JP V0, nnn (R163). The row's fields `x` and `nn` overlap `nnn`: the legacy branch reads `nnn`, the other
  `x` and `nn`. A well-formed term's fields agree (`Instr.wellFormed`). -/
  | jpOff (nnn : Addr12) (x : Nibble) (nn : Byte)
  /-- `Cxnn` RND Vx, nn (R211). -/
  | rnd (x : Nibble) (nn : Byte)
  /-- `Dxyn` DRW Vx, Vy, n (R141). -/
  | drw (x y n : Nibble)
  /-- `Ex9E` SKP Vx (R260). -/
  | skp (x : Nibble)
  /-- `ExA1` SKNP Vx (R261). -/
  | sknp (x : Nibble)
  /-- `Fx07` LD Vx, DT (R262). -/
  | ldVxDt (x : Nibble)
  /-- `Fx0A` LD Vx, K (R263). -/
  | ldVxK (x : Nibble)
  /-- `Fx15` LD DT, Vx (R264). -/
  | ldDtVx (x : Nibble)
  /-- `Fx18` LD ST, Vx (R265). -/
  | ldStVx (x : Nibble)
  /-- `Fx1E` ADD I, Vx (R231). -/
  | addI (x : Nibble)
  /-- `Fx29` LD F, Vx (R232). -/
  | ldF (x : Nibble)
  /-- `Fx33` LD B, Vx (R233). -/
  | ldB (x : Nibble)
  /-- `Fx55` LD [I], Vx (R234). -/
  | ldMemVx (x : Nibble)
  /-- `Fx65` LD Vx, [I] (R235). -/
  | ldVxMem (x : Nibble)
deriving DecidableEq, Repr

end Sys2Proof
end

