-- ==== Sys2Proof/Decode.lean ====
section
/-! DEFINITION. Decode.lean: the decoder, total on any two bytes, and the encoder, both written from the opcode map by
top nibble (30_encoding.md R91, R93, R95). -/

namespace Sys2Proof

/-- What decoding answers: an instruction, or UNKNOWN with the raw word (R94, R96). -/
inductive Decoded where
  | known (i : Instr)
  | unknown (w : Word)
deriving DecidableEq, Repr

/-- `w[15:12]`, the family (R91). -/
def fieldOp (w : Word) : Nibble := w.extractLsb' 12 4
/-- `w[11:8]` (R91). -/
def fieldX (w : Word) : Nibble := w.extractLsb' 8 4
/-- `w[7:4]` (R91). -/
def fieldY (w : Word) : Nibble := w.extractLsb' 4 4
/-- `w[3:0]` (R91). -/
def fieldN (w : Word) : Nibble := w.extractLsb' 0 4
/-- `w[7:0]` (R91). -/
def fieldNN (w : Word) : Byte := w.extractLsb' 0 8
/-- `w[11:0]` (R91). -/
def fieldNNN (w : Word) : Addr12 := w.extractLsb' 0 12

/-- "An instruction word is big-endian: w = (M[pc] << 8) | M[pc + 1]" (20_memory.md R69, R90). -/
def wordOfBytes (hi lo : Byte) : Word := hi ++ lo

/-- `w[15:8]`, the byte at the lower address (R69). -/
def highByte (w : Word) : Byte := w.extractLsb' 8 8
/-- `w[7:0]`, the byte at the higher address (R69). -/
def lowByte (w : Word) : Byte := w.extractLsb' 0 8

/-- Family 0: only 00E0 and 00EE (R95, R97). -/
def decode0 (w : Word) : Decoded :=
  if w = 0x00E0 then .known .cls
  else if w = 0x00EE then .known .ret
  else .unknown w

/-- Family 8, by the low nibble (R95). -/
def decode8 (w : Word) : Decoded :=
  let x := fieldX w
  let y := fieldY w
  let n := fieldN w
  if n = 0x0 then .known (.ldReg x y)
  else if n = 0x1 then .known (.orReg x y)
  else if n = 0x2 then .known (.andReg x y)
  else if n = 0x3 then .known (.xorReg x y)
  else if n = 0x4 then .known (.addReg x y)
  else if n = 0x5 then .known (.sub x y)
  else if n = 0x6 then .known (.shr x y)
  else if n = 0x7 then .known (.subn x y)
  else if n = 0xE then .known (.shl x y)
  else .unknown w

/-- Family E, by the low byte (R95). -/
def decodeE (w : Word) : Decoded :=
  let x := fieldX w
  let nn := fieldNN w
  if nn = 0x9E then .known (.skp x)
  else if nn = 0xA1 then .known (.sknp x)
  else .unknown w

/-- Family F, by the low byte (R95). -/
def decodeF (w : Word) : Decoded :=
  let x := fieldX w
  let nn := fieldNN w
  if nn = 0x07 then .known (.ldVxDt x)
  else if nn = 0x0A then .known (.ldVxK x)
  else if nn = 0x15 then .known (.ldDtVx x)
  else if nn = 0x18 then .known (.ldStVx x)
  else if nn = 0x1E then .known (.addI x)
  else if nn = 0x29 then .known (.ldF x)
  else if nn = 0x33 then .known (.ldB x)
  else if nn = 0x55 then .known (.ldMemVx x)
  else if nn = 0x65 then .known (.ldVxMem x)
  else .unknown w

/-- The opcode map by top nibble (R95), strict (R94): a word of no row is UNKNOWN. -/
def decode (w : Word) : Decoded :=
  let op := fieldOp w
  if op = 0x0 then decode0 w
  else if op = 0x1 then .known (.jp (fieldNNN w))
  else if op = 0x2 then .known (.call (fieldNNN w))
  else if op = 0x3 then .known (.seImm (fieldX w) (fieldNN w))
  else if op = 0x4 then .known (.sneImm (fieldX w) (fieldNN w))
  else if op = 0x5 then if fieldN w = 0x0 then .known (.seReg (fieldX w) (fieldY w)) else .unknown w
  else if op = 0x6 then .known (.ldImm (fieldX w) (fieldNN w))
  else if op = 0x7 then .known (.addImm (fieldX w) (fieldNN w))
  else if op = 0x8 then decode8 w
  else if op = 0x9 then if fieldN w = 0x0 then .known (.sneReg (fieldX w) (fieldY w)) else .unknown w
  else if op = 0xA then .known (.ldI (fieldNNN w))
  else if op = 0xB then .known (.jpOff (fieldNNN w) (fieldX w) (fieldNN w))
  else if op = 0xC then .known (.rnd (fieldX w) (fieldNN w))
  else if op = 0xD then .known (.drw (fieldX w) (fieldY w) (fieldN w))
  else if op = 0xE then decodeE w
  else decodeF w

/-- Decoding the two bytes of a fetch, first the one at the lower address (R90). -/
def decodeBytes (hi lo : Byte) : Decoded := decode (wordOfBytes hi lo)

/-- The word of an instruction, its formats' fields side by side, bit 15 on the left (R93, R95). -/
def encode : Instr → Word
  | .cls => 0x00E0
  | .ret => 0x00EE
  | .jp nnn => 0x1#4 ++ nnn
  | .call nnn => 0x2#4 ++ nnn
  | .seImm x nn => 0x3#4 ++ x ++ nn
  | .sneImm x nn => 0x4#4 ++ x ++ nn
  | .seReg x y => 0x5#4 ++ x ++ y ++ 0x0#4
  | .ldImm x nn => 0x6#4 ++ x ++ nn
  | .addImm x nn => 0x7#4 ++ x ++ nn
  | .ldReg x y => 0x8#4 ++ x ++ y ++ 0x0#4
  | .orReg x y => 0x8#4 ++ x ++ y ++ 0x1#4
  | .andReg x y => 0x8#4 ++ x ++ y ++ 0x2#4
  | .xorReg x y => 0x8#4 ++ x ++ y ++ 0x3#4
  | .addReg x y => 0x8#4 ++ x ++ y ++ 0x4#4
  | .sub x y => 0x8#4 ++ x ++ y ++ 0x5#4
  | .shr x y => 0x8#4 ++ x ++ y ++ 0x6#4
  | .subn x y => 0x8#4 ++ x ++ y ++ 0x7#4
  | .shl x y => 0x8#4 ++ x ++ y ++ 0xE#4
  | .sneReg x y => 0x9#4 ++ x ++ y ++ 0x0#4
  | .ldI nnn => 0xA#4 ++ nnn
  | .jpOff nnn _ _ => 0xB#4 ++ nnn
  | .rnd x nn => 0xC#4 ++ x ++ nn
  | .drw x y n => 0xD#4 ++ x ++ y ++ n
  | .skp x => 0xE#4 ++ x ++ 0x9E#8
  | .sknp x => 0xE#4 ++ x ++ 0xA1#8
  | .ldVxDt x => 0xF#4 ++ x ++ 0x07#8
  | .ldVxK x => 0xF#4 ++ x ++ 0x0A#8
  | .ldDtVx x => 0xF#4 ++ x ++ 0x15#8
  | .ldStVx x => 0xF#4 ++ x ++ 0x18#8
  | .addI x => 0xF#4 ++ x ++ 0x1E#8
  | .ldF x => 0xF#4 ++ x ++ 0x29#8
  | .ldB x => 0xF#4 ++ x ++ 0x33#8
  | .ldMemVx x => 0xF#4 ++ x ++ 0x55#8
  | .ldVxMem x => 0xF#4 ++ x ++ 0x65#8

/-- The word of an instruction whose bits, numbered as the opcode table numbers them, are the low `nbits` bits of `w`
(every instruction is one 16-bit word, R90). -/
def tableWord (nbits w : Nat) : Word := BitVec.ofNat 16 (w % 2 ^ nbits)

/-- The instruction the decoder reads from a table word, laid out as two bytes in the machine's byte order. -/
def decodeTableWord (nbits w : Nat) : Option Instr :=
  match decodeBytes (highByte (tableWord nbits w)) (lowByte (tableWord nbits w)) with
  | .known i => some i
  | .unknown _ => none

end Sys2Proof
end

