-- ==== Sys2Proof/Config.lean ====
section
/-! DEFINITION. Config.lean: what a realisation fixes (00_scope.md R6) and the one free value, the random source of
Cxnn. The parameters the spec leaves OPEN are a structure that State carries, so that a claim quantifies over them. -/

namespace Sys2Proof

/-- One glyph of the font table: 5 rows of one byte (20_memory.md R61, R62). -/
abbrev Glyph := Vector Byte 5

/-- The parameter FONT: "16 glyphs × 5 bytes each, one glyph per hex digit 0–F" (R61, R62). -/
abbrev Font := Vector Glyph 16

/-- The parameter KEY_OOR: what Ex9E and ExA1 see for a key index of 16 or more (R6, R266). -/
inductive KeyOor where
  | released
  | mask
deriving DecidableEq, Repr

/-- The parameters of R6 that are OPEN (QUIRKS is state, R34; RNG is `Config.randomByte`).
They are not architectural state (R37); log 2 says why State carries them. -/
structure Params where
  /-- FONT: the bytes Reset writes to 0x000–0x04F. -/
  font : Font
  /-- STACK_DEPTH: `none` is `unbounded`, `some d` a bounded realisation (R31). -/
  stackDepth : Option Nat
  /-- KEY_OOR (R266). -/
  keyOor : KeyOor
  /-- BATCH_SIZE: instructions per instruction-execution tick. No rule depends on it (R348). -/
  batchSize : Nat
  /-- TIMER_HZ: ticks per second. No rule depends on it (R348). -/
  timerHz : Nat
deriving DecidableEq, Repr

/-- "A bounded realisation takes STACK_DEPTH ≥ 16" (R31). -/
abbrev Params.wf (p : Params) : Prop := ∀ d ∈ p.stackDepth, 16 ≤ d

/-- The spec's default FONT, the table of R62. PRESUMED: the spec marks it as general knowledge, not in its source
(log 3). Unsafe: a claim about glyph pixels holds only of this table. -/
def Config.defaultFont : Font := #v[
  #v[0xF0, 0x90, 0x90, 0x90, 0xF0], #v[0x20, 0x60, 0x20, 0x20, 0x70],
  #v[0xF0, 0x10, 0xF0, 0x80, 0xF0], #v[0xF0, 0x10, 0xF0, 0x10, 0xF0],
  #v[0x90, 0x90, 0xF0, 0x10, 0x10], #v[0xF0, 0x80, 0xF0, 0x10, 0xF0],
  #v[0xF0, 0x80, 0xF0, 0x90, 0xF0], #v[0xF0, 0x10, 0x20, 0x40, 0x40],
  #v[0xF0, 0x90, 0xF0, 0x90, 0xF0], #v[0xF0, 0x90, 0xF0, 0x10, 0xF0],
  #v[0xF0, 0x90, 0xF0, 0x90, 0x90], #v[0xE0, 0x90, 0xE0, 0x90, 0xE0],
  #v[0xF0, 0x80, 0x80, 0x80, 0xF0], #v[0xE0, 0x90, 0x90, 0x90, 0xE0],
  #v[0xF0, 0x80, 0xF0, 0x80, 0xF0], #v[0xF0, 0x80, 0xF0, 0x80, 0x80]]

/-- The parameters at State.reset: R6's defaults; BATCH_SIZE has none in the spec (DESIGN CHOICE 1, log 3; unsafe
for a claim that reads it, and no rule does). -/
def Config.defaultParams : Params where
  font := Config.defaultFont
  stackDepth := none
  keyOor := .released
  batchSize := 1
  timerHz := 60

/-- The random source of Cxnn: the byte of the n-th draw. "A model takes each draw as a free input, with no law and no
independence assumption" (44_alu.md R211; R6 `RNG`). It has no body, so nothing can be proved of a draw (log 8; safe). -/
opaque Config.randomByte : Nat → Byte

end Sys2Proof
end

