-- ==== Sys2Proof/Machine/State.lean ====
section
/-! DEFINITION. Machine/State.lean: everything the spec gives the machine (10_state.md, 20_memory.md), as plain data; the
reasons to stop; one setter per field; and the state right after power-on. -/

namespace Sys2Proof.Machine

/-- The machine never faults: "All error conditions are locally absorbed by the Executor" (60_exceptions.md R300). So
there is no constructor; error conditions append a `Diag` and the machine goes on (log 1, log 24). -/
inductive Fault where
deriving DecidableEq, Repr

/-- Why the model has no answer. -/
inductive Refusal where
  /-- Raised by `exec` for an instruction without a meaning; no arm raises it. Safe. -/
  | notModelled (mnemonic : String)
deriving DecidableEq, Repr

/-- The four quirk bits (10_state.md R34). -/
structure Quirks where
  shiftVxIsVy : Bool
  jumpWithOffsetLegacy : Bool
  storeIncrementIr : Bool
  drawSpriteWrap : Bool
deriving DecidableEq, Repr

/-- The control state `ctl` (10_state.md R35). -/
inductive Ctl where
  | idle
  | run
  | pause
  | loading
deriving DecidableEq, Repr

/-- The diagnostic codes (60_exceptions.md R302). -/
inductive DiagCode where
  | unknownOpcode
  | fetchOob
  | readOob
  | writeOob
  | stackUnderflow
  | stackOverflow
  | romOob
deriving DecidableEq, Repr

/-- A diagnostic event `{code, pc, word, addr}` (60_exceptions.md R301). An out-of-bounds address is an integer that no
width bounds (45_index_memory.md: addresses `I + k` are computed without wrap). -/
structure Diag where
  code : DiagCode
  pc : Option Word
  word : Option Word
  addr : Option Nat
deriving DecidableEq, Repr

/-- One agent's next atomic step (00_scope.md R7, R8; 60_exceptions.md R315). The host's reads change nothing and take no
turn. -/
inductive Turn where
  /-- The executor's cycle, enabled in RUN. -/
  | cycle
  /-- The timer tick, enabled in RUN (R307). -/
  | tick
  /-- The host sets one keyboard slot pressed or released (R29, R310). -/
  | keyWrite (slot : Nibble) (pressed : Bool)
  /-- Start (R315). -/
  | start
  /-- Pause/Resume, a toggle (R315). -/
  | pauseResume
  /-- Step: one cycle in IDLE or PAUSE (R313). -/
  | stepOnce
  /-- Reset (R340). -/
  | reset
  /-- The host loader delivers the ROM and the copy completes (R341). -/
  | romDeliver (rom : List Byte)
  /-- The host writes the configuration port, bits 0–3 of R34's table; enabled in IDLE. -/
  | quirksWrite (port : BitVec 4)
  /-- The host writes BATCH_SIZE; enabled in IDLE. -/
  | batchSizeWrite (n : Nat)
  /-- The host writes TIMER_HZ; enabled in IDLE. -/
  | timerHzWrite (n : Nat)
deriving DecidableEq, Repr

/-- Memory (20_memory.md R60): the bytes that differ from the reset contents, by strictly rising address. -/
abbrev Memory := List Host.Cell

/-- The framebuffer, row Y then column X (10_state.md R28). -/
abbrev Grid := Vector (Vector Bool 64) 32

/-- The whole machine. Fields are listed with their rules and reset values in INVENTORY.md. -/
@[ext]
structure State where
  /-- V0–VF (R20). -/
  v : Vector Byte 16
  /-- The index register I (R24). -/
  i : Word
  /-- The program counter (R26). -/
  pc : Word
  /-- The call stack, its head the top (R30). -/
  stack : List Word
  /-- The delay timer (R33). -/
  dt : Byte
  /-- The sound timer (R33). -/
  st : Byte
  /-- The framebuffer (R28). -/
  fb : Grid
  /-- The keyboard bitmap, slot k true when key k is pressed (R29). -/
  key : Vector Bool 16
  /-- Memory (R60). -/
  mem : Memory
  /-- QUIRKS (R34). -/
  quirks : Quirks
  /-- The control state (R35). -/
  ctl : Ctl
  /-- The default-advance flag, `true` for "advance" (R32). -/
  advance : Bool
  /-- The diagnostic stream, oldest first (R36). -/
  diags : List Diag
  /-- The realisation's parameters (R6; log 2). -/
  params : Params
  /-- The model's own: how many random draws have been taken (R211; log 8). -/
  draws : Nat
  /-- The model's own: the agents' turns still to come (R7, R128; log 9). -/
  schedule : List Turn
deriving DecidableEq, Repr

/-- Replace the register file. -/
def State.setV (s : State) (a : Vector Byte 16) : State := { s with v := a }
/-- Replace I. -/
def State.setI (s : State) (a : Word) : State := { s with i := a }
/-- Replace the PC. -/
def State.setPc (s : State) (a : Word) : State := { s with pc := a }
/-- Replace the call stack. -/
def State.setStack (s : State) (a : List Word) : State := { s with stack := a }
/-- Replace DT. -/
def State.setDt (s : State) (a : Byte) : State := { s with dt := a }
/-- Replace ST. -/
def State.setSt (s : State) (a : Byte) : State := { s with st := a }
/-- Replace the framebuffer. -/
def State.setFb (s : State) (a : Grid) : State := { s with fb := a }
/-- Replace the keyboard bitmap. -/
def State.setKey (s : State) (a : Vector Bool 16) : State := { s with key := a }
/-- Replace memory. -/
def State.setMem (s : State) (a : Memory) : State := { s with mem := a }
/-- Replace QUIRKS. -/
def State.setQuirks (s : State) (a : Quirks) : State := { s with quirks := a }
/-- Replace the control state. -/
def State.setCtl (s : State) (a : Ctl) : State := { s with ctl := a }
/-- Replace the default-advance flag. -/
def State.setAdvance (s : State) (a : Bool) : State := { s with advance := a }
/-- Replace the diagnostic stream. -/
def State.setDiags (s : State) (a : List Diag) : State := { s with diags := a }
/-- Replace the parameters. -/
def State.setParams (s : State) (a : Params) : State := { s with params := a }
/-- Replace the draw counter. -/
def State.setDraws (s : State) (a : Nat) : State := { s with draws := a }
/-- Replace the schedule. -/
def State.setSchedule (s : State) (a : List Turn) : State := { s with schedule := a }

/-- Right after power-on: "a Reset with an empty ROM. After power-on, ctl = IDLE and memory holds only the font" (R41), with
R40's values. The spec gives no power-on value for QUIRKS (log 4), `advance` (log 5), the diagnostic stream (log 6),
BATCH_SIZE (log 3), and none for the model's own `draws` (log 8) and `schedule` (log 9): DESIGN CHOICE, unsafe for a claim
about the run from this one state. V0–VF and KEY are R40's zeros, which the spec marks as its own choice D13 (log 7). -/
def State.reset : State where
  v := Vector.replicate 16 0x00
  i := 0x0000
  pc := 0x0200
  stack := []
  dt := 0x00
  st := 0x00
  fb := Vector.replicate 32 (Vector.replicate 64 false)
  key := Vector.replicate 16 false
  mem := []
  quirks := { shiftVxIsVy := false, jumpWithOffsetLegacy := false, storeIncrementIr := false, drawSpriteWrap := false }
  ctl := .idle
  advance := true
  diags := []
  params := Config.defaultParams
  draws := 0
  schedule := []

end Sys2Proof.Machine
end

