-- ==== Sys2Proof/Machine/Ops.lean ====
section
/-! DEFINITION. Machine/Ops.lean: the named operations over registers, memory, stack, framebuffer, keyboard and the
diagnostic stream, each written from the rule it cites. An instruction's meaning is made of these alone. -/

namespace Sys2Proof.Machine

/-! ### Diagnostics (60_exceptions.md): what this machine has in place of taking an exception -/

/-- The code numbers of R302, "the spec's own assignment". -/
def diagNumber : DiagCode → Nat
  | .unknownOpcode => 1
  | .fetchOob => 2
  | .readOob => 3
  | .writeOob => 4
  | .stackUnderflow => 5
  | .stackOverflow => 6
  | .romOob => 7

/-- "raise Diag(code, info) appends one diagnostic event to the diagnostic stream … it transfers no control"
(00_scope.md R13, R36, R304). -/
def raise (d : Diag) (s : State) : State := s.setDiags (s.diags ++ [d])

/-- An event of the instruction at the pc (R301: `pc` is the address of the instruction that raised it). -/
def raiseHere (code : DiagCode) (word : Option Word) (addr : Option Nat) (s : State) : State :=
  raise { code := code, pc := some s.pc, word := word, addr := addr } s

/-! ### General registers (10_state.md R20) -/

/-- The register file's index of a 4-bit register field. -/
theorem nibble_lt (x : Nibble) : x.toNat < 16 := x.isLt

/-- `V[x]` (R11). -/
def readV (x : Nibble) (s : State) : Byte := s.v[x.toNat]'(nibble_lt x)

/-- `V[x] <- b` (R11). -/
def writeV (x : Nibble) (b : Byte) (s : State) : State := s.setV (s.v.set x.toNat b (nibble_lt x))

/-! ### Program counter (10_state.md R26, R27; 40_cycle.md R121, R124, R126) -/

/-- `pc <- target; advance <- 0`: an explicit PC, the default advance suppressed (R121). -/
def jump (target : Word) (s : State) : State := (s.setPc target).setAdvance false

/-- `pc <- (pc + 2) mod 2^16` (R27). -/
def bumpPc (s : State) : State := s.setPc (s.pc + 2)

/-- `skip`: `pc <- (pc + 2) mod 2^16` during Execute, with `advance` left as it is (R126). -/
def skipIf (c : Bool) (s : State) : State := if c then bumpPc s else s

/-- A waiting Fx0A: `advance <- 0`, the pc unchanged (R121, R263). -/
def hold (s : State) : State := s.setAdvance false

/-! ### Memory (20_memory.md) -/

/-- Is `a` a cell's address? "Only 0x000–0xFFF name a cell" (R60). -/
abbrev inBounds (a : Nat) : Prop := a ≤ 0xFFF

/-- What an unlisted address reads as: the reset contents, FONT at 0x000–0x04F ("glyph d occupies 5·d … 5·d + 4", R61) and
0x00 elsewhere (R66). -/
def Memory.unlisted (font : Font) (a : Nat) : Byte :=
  if h : a < 80 then (font[a / 5]'(by omega))[a % 5]'(by omega) else 0x00

/-- The byte listed for `a`, if one is. -/
def Memory.listed : Memory → Nat → Option Byte
  | [], _ => none
  | (b, w) :: m, a => if b = a then some w else Memory.listed m a

/-- `M[a]`. -/
def Memory.read (font : Font) (m : Memory) (a : Nat) : Byte := (Memory.listed m a).getD (Memory.unlisted font a)

/-- Drop the entry of `a`. -/
def Memory.erase (m : Memory) (a : Nat) : Memory := m.filter fun c => c.1 ≠ a

/-- List `w` for `a`, keeping addresses in rising order. -/
def Memory.insert : Memory → Nat → Byte → Memory
  | [], a, w => [(a, w)]
  | (b, u) :: m, a, w =>
    if a < b then (a, w) :: (b, u) :: m
    else if a = b then (a, w) :: m
    else (b, u) :: Memory.insert m a w

/-- `M[a] <- w`, keeping the canonical form: a byte equal to what an unlisted address reads as is not listed. -/
def Memory.write (font : Font) (m : Memory) (a : Nat) (w : Byte) : Memory :=
  if w = Memory.unlisted font a then Memory.erase m a else Memory.insert m a w

/-- The canonical form: addresses strictly rising, inside the address space, and no entry equal to what an unlisted
address reads as. -/
abbrev Memory.wf (font : Font) (m : Memory) : Prop :=
  m.Pairwise (fun c d => c.1 < d.1) ∧ ∀ c ∈ m, inBounds c.1 ∧ c.2 ≠ Memory.unlisted font c.1

/-- The byte at `a` as memory stands, with no bound check and no event. -/
def byteAt (a : Nat) (s : State) : Byte := Memory.read s.params.font s.mem a

/-- Put one byte at `a` with no bound check and no event. -/
def pokeByte (a : Nat) (b : Byte) (s : State) : State := s.setMem (Memory.write s.params.font s.mem a b)

/-- `MemRead(a, 1)`: the byte, or `none` for `OOB` with a READ_OOB event (R63). -/
def memRead (a : Nat) (s : State) : Option Byte × State :=
  if inBounds a then (some (byteAt a s), s) else (none, raiseHere .readOob none (some a) s)

/-- `MemWrite(a, 1, b)`: store, or a WRITE_OOB event with memory unchanged (R64, R65). -/
def memWrite (a : Nat) (b : Byte) (s : State) : State :=
  if inBounds a then pokeByte a b s else raiseHere .writeOob none (some a) s

/-! ### Call stack (10_state.md R30, R31) -/

/-- `length(STACK) = STACK_DEPTH` in a bounded realisation; never in an unbounded one (R31, R162). -/
def stackFull (s : State) : Bool :=
  match s.params.stackDepth with
  | none => false
  | some d => s.stack.length == d

/-- `push(w)` (R11). -/
def push (w : Word) (s : State) : State := s.setStack (w :: s.stack)

/-! ### Framebuffer (10_state.md R28) -/

/-- `FB(X, Y)` (R11). -/
def cell (X : Fin 64) (Y : Fin 32) (s : State) : Bool := s.fb[Y][X]

/-- `FB(X, Y) <- b` (R11). -/
def setCell (X : Fin 64) (Y : Fin 32) (b : Bool) (s : State) : State :=
  s.setFb (s.fb.set Y (s.fb[Y].set X b))

/-- Every cell 0. -/
def clearGrid (s : State) : State := s.setFb (Vector.replicate 32 (Vector.replicate 64 false))

/-! ### Keyboard (10_state.md R29) -/

/-- `KEY(k)` (R11). -/
def keySlot (k : Nibble) (s : State) : Bool := s.key[k.toNat]'(nibble_lt k)

/-- The host's write of one slot (R310). -/
def setKeySlot (k : Nibble) (pressed : Bool) (s : State) : State := s.setKey (s.key.set k.toNat pressed (nibble_lt k))

/-- The lowest pressed slot of one snapshot of all 16 (46_timer_keyboard.md R263). -/
def lowestKey (s : State) : Option Nat := s.key.toList.findIdx? fun b => b

/-! ### Random source (44_alu.md R211) -/

/-- `rand8()`: the next draw, and the counter moved past it. -/
def rand8 (s : State) : Byte × State := (Config.randomByte s.draws, s.setDraws (s.draws + 1))

/-! ### Timers (60_exceptions.md R307) -/

/-- "if T > 0: T <- T - 1". -/
def countDown (t : Byte) : Byte := if t = 0 then 0 else t - 1

/-- `TimerTick()`: both timers in one step (R307). -/
def timerTick (s : State) : State := (s.setDt (countDown s.dt)).setSt (countDown s.st)

/-! ### Reset, ROM copy and configuration port (70_reset_and_hazards.md) -/

/-- `Reset()` (R340): LOADING, memory at its reset contents, every register and timer 0, pc 0x200. QUIRKS, the parameters and
the diagnostic stream are kept, and so are the model's own `draws` and `schedule`. -/
def resetCore (s : State) : State :=
  { s with
    ctl := .loading
    mem := []
    v := Vector.replicate 16 0x00
    i := 0x0000
    pc := 0x0200
    stack := []
    dt := 0x00
    st := 0x00
    fb := Vector.replicate 32 (Vector.replicate 64 false)
    key := Vector.replicate 16 false }

/-- One byte of the ROM copy, to address `a`: stored, or dropped with a ROM_OOB event, which has no pc (R341, R301). -/
def romByte (a : Nat) (b : Byte) (s : State) : State :=
  if inBounds a then pokeByte a b s
  else raise { code := .romOob, pc := none, word := none, addr := some a } s

/-- The bytes of a ROM to rising addresses from `a`. -/
def romCopy : Nat → List Byte → State → State
  | _, [], s => s
  | a, b :: rom, s => romCopy (a + 1) rom (romByte a b s)

/-- `LoadRom(rom)`: the bytes from 0x200 up, then IDLE (R341). -/
def loadRom (rom : List Byte) (s : State) : State := (romCopy 0x200 rom s).setCtl .idle

/-- The configuration port: bit 0 `shift_VX_is_VY`, 1 `jump_with_offset_legacy`, 2 `store_increment_ir`, 3
`draw_sprite_wrap` (R34). -/
def quirksOfPort (port : BitVec 4) : Quirks where
  shiftVxIsVy := port.getLsbD 0
  jumpWithOffsetLegacy := port.getLsbD 1
  storeIncrementIr := port.getLsbD 2
  drawSpriteWrap := port.getLsbD 3

/-! ### The host's read ports -/

/-- The framebuffer read port: the grid between two steps (R311). -/
def framebufferPort (s : State) : Grid := s.fb

/-- The sound timer read port, open in any control state (R314). -/
def soundTimerPort (s : State) : Byte := s.st

/-- The diagnostic stream, core to host (R8, R36). -/
def diagnosticPort (s : State) : List Diag := s.diags

/-- Put a two-byte instruction word at the pc, in the machine's byte order, and enable the executor's next cycle: what
`State.withFetchWord` needs (log 12). A pc that cannot fetch (R122) is moved to the reset pc. -/
def placeWord (w : Word) (s : State) : State :=
  let pc := if s.pc.toNat > 0xFFE then 0x0200 else s.pc
  let s := pokeByte (pc.toNat + 1) (lowByte w) (pokeByte pc.toNat (highByte w) (s.setPc pc))
  (s.setCtl .run).setSchedule []

end Sys2Proof.Machine
end

