-- ==== Sys2Proof/Machine/Flags.lean ====
section
/-! DEFINITION. Machine/Flags.lean: every flag computation of the spec. VF is the only flag, and it is a byte that holds 0
or 1 after a flag write (10_state.md R22; 44_alu.md R212). -/

namespace Sys2Proof.Machine

/-- `c ? 1 : 0` as VF holds it. -/
def flagByte (c : Bool) : Byte := if c then 1 else 0

/-- 8xy4: "VF = 1 exactly when the unwrapped sum exceeds 255" (R206, R212). -/
def carry (a b : Byte) : Byte := flagByte (decide (a.toNat + b.toNat > 255))

/-- 8xy5 and 8xy7: "VF = 1 when there is no borrow, meaning minuend ≥ subtrahend" (R207, R209, R212). -/
def noBorrow (minuend subtrahend : Byte) : Byte := flagByte (decide (minuend.toNat ≥ subtrahend.toNat))

/-- 8xy6: the bit shifted out, old bit 0 (R208). -/
def shiftedOutRight (a : Byte) : Byte := a &&& 1

/-- 8xyE: the bit shifted out, old bit 7 (R210). -/
def shiftedOutLeft (a : Byte) : Byte := (a >>> 7) &&& 1

/-- `V[0xF] <- flag`, after the result is written (R22). -/
def writeFlag (flag : Byte) (s : State) : State := writeV VF flag s

end Sys2Proof.Machine
end

