-- ==== Sys2Proof/Machine/Operands.lean ====
section
/-! DEFINITION. Machine/Operands.lean: every operand form: the quirk-dependent shift source, the font address, the key
index, the index-register address of byte k, and a sprite pixel's target cell. -/

namespace Sys2Proof.Machine

/-- `zext_16` of an address field (30_encoding.md R92). -/
def zextNNN (nnn : Addr12) : Word := nnn.setWidth 16

/-- `zext_16` of a byte (R92). -/
def zextByte (b : Byte) : Word := b.setWidth 16

/-- 8xy6 and 8xyE's substitution: with `shift_VX_is_VY`, "V[x] <- V[y]" first (44_alu.md R208, R210). -/
def shiftSource (x y : Nibble) (s : State) : State :=
  if s.quirks.shiftVxIsVy then writeV x (readV y s) s else s

/-- Bnnn's target: `nnn + V0` with `jump_with_offset_legacy`, else the literal `x + nn + V[x]` (42_flow.md R163, C1). -/
def offsetTarget (nnn : Addr12) (x : Nibble) (nn : Byte) (s : State) : Word :=
  if s.quirks.jumpWithOffsetLegacy then zextNNN nnn + zextByte (readV 0 s)
  else x.setWidth 16 + zextByte nn + zextByte (readV x s)

/-- Fx29's `(V[x] & 0x0F) × 5` (R92; 45_index_memory.md R232). -/
def glyphAddress (b : Byte) : Word := zextByte (b &&& 0x0F) * 5

/-- `Key(v)` (46_timer_keyboard.md R266). -/
def keyDown (b : Byte) (s : State) : Bool :=
  if b.toNat ≤ 0xF then keySlot (b.setWidth 4) s
  else match s.params.keyOor with
    | .released => false
    | .mask => keySlot ((b &&& 0x0F).setWidth 4) s

/-- The address of byte `k` of Fx55 and Fx65: I itself with `store_increment_ir`, which has moved on by then, else `I + k` on
integers (45_index_memory.md R234, R235). -/
def indexAddress (k : Nat) (s : State) : Nat :=
  if s.quirks.storeIncrementIr then s.i.toNat else s.i.toNat + k

/-- The post-increment after each byte with `store_increment_ir`: `I <- (I + 1) mod 2^16` (R234, R25). -/
def postIncrement (s : State) : State := if s.quirks.storeIncrementIr then s.setI (s.i + 1) else s

/-- Where pixel (X, Y) of a sprite lands: reduced modulo the grid with `draw_sprite_wrap`, else clipped (`none`) outside it
(41_display.md R143). -/
def pixelTarget (wrap : Bool) (X Y : Nat) : Option (Fin 64 × Fin 32) :=
  if wrap then some (⟨X % 64, Nat.mod_lt _ (by omega)⟩, ⟨Y % 32, Nat.mod_lt _ (by omega)⟩)
  else if h : X < 64 ∧ Y < 32 then some (⟨X, h.1⟩, ⟨Y, h.2⟩)
  else none

end Sys2Proof.Machine
end

