-- ==== Sys2Proof/Machine/Alu.lean ====
section
/-! DEFINITION. Machine/Alu.lean: 6xnn, 7xnn, 8xy0–8xy7, 8xyE, Cxnn (44_alu.md). Operands are read before any write, and a
flag is written after its result (R14, R22). -/

namespace Sys2Proof.Machine

/-- LD Vx, nn (R200). -/
def execLdImm (x : Nibble) (nn : Byte) (s : State) : Host.Outcome State Fault Refusal := .next (writeV x nn s)

/-- ADD Vx, nn: modulo 256, no flag (R201). -/
def execAddImm (x : Nibble) (nn : Byte) (s : State) : Host.Outcome State Fault Refusal :=
  .next (writeV x (readV x s + nn) s)

/-- LD Vx, Vy (R202). -/
def execLdReg (x y : Nibble) (s : State) : Host.Outcome State Fault Refusal := .next (writeV x (readV y s) s)

/-- OR Vx, Vy: no flag (R203). -/
def execOr (x y : Nibble) (s : State) : Host.Outcome State Fault Refusal :=
  .next (writeV x (readV x s ||| readV y s) s)

/-- AND Vx, Vy: no flag (R204). -/
def execAnd (x y : Nibble) (s : State) : Host.Outcome State Fault Refusal :=
  .next (writeV x (readV x s &&& readV y s) s)

/-- XOR Vx, Vy: no flag (R205). -/
def execXor (x y : Nibble) (s : State) : Host.Outcome State Fault Refusal :=
  .next (writeV x (readV x s ^^^ readV y s) s)

/-- ADD Vx, Vy (R206). -/
def execAddReg (x y : Nibble) (s : State) : Host.Outcome State Fault Refusal :=
  let a := readV x s
  let b := readV y s
  .next (writeFlag (carry a b) (writeV x (a + b) s))

/-- SUB Vx, Vy: Vx − Vy (R207). -/
def execSub (x y : Nibble) (s : State) : Host.Outcome State Fault Refusal :=
  let a := readV x s
  let b := readV y s
  .next (writeFlag (noBorrow a b) (writeV x (a - b) s))

/-- SUBN Vx, Vy: Vy − Vx (R209). -/
def execSubn (x y : Nibble) (s : State) : Host.Outcome State Fault Refusal :=
  let a := readV x s
  let b := readV y s
  .next (writeFlag (noBorrow b a) (writeV x (b - a) s))

/-- SHR Vx, Vy (R208). -/
def execShr (x y : Nibble) (s : State) : Host.Outcome State Fault Refusal :=
  let s := shiftSource x y s
  let a := readV x s
  .next (writeFlag (shiftedOutRight a) (writeV x (a >>> 1) s))

/-- SHL Vx, Vy (R210). -/
def execShl (x y : Nibble) (s : State) : Host.Outcome State Fault Refusal :=
  let s := shiftSource x y s
  let a := readV x s
  .next (writeFlag (shiftedOutLeft a) (writeV x (a <<< 1) s))

/-- RND Vx, nn: exactly one draw (R211). -/
def execRnd (x : Nibble) (nn : Byte) (s : State) : Host.Outcome State Fault Refusal :=
  let (r, s) := rand8 s
  .next (writeV x (r &&& nn) s)

end Sys2Proof.Machine
end

