-- ==== Sys2Proof/Machine/Display.lean ====
section
/-! DEFINITION. Machine/Display.lean: 00E0 and Dxyn (41_display.md). -/

namespace Sys2Proof.Machine

/-- CLS (R140). -/
def execCls (s : State) : Host.Outcome State Fault Refusal := .next (clearGrid s)

/-- One set sprite bit: "if target was 1, clear it and set VF = 1 (collision); if target was 0, set it to 1" (R144). -/
def xorPixel (X : Fin 64) (Y : Fin 32) (s : State) : State :=
  if cell X Y s then writeFlag 1 (setCell X Y false s) else setCell X Y true s

/-- The bits `js` of row byte `b` at (X0, Y), bit j being `b[7 - j]`; the first clipped bit ends the row (R141, R143). -/
def drawBits (b : Byte) (X0 Y : Nat) : List Nat → State → State
  | [], s => s
  | j :: js, s =>
    match pixelTarget s.quirks.drawSpriteWrap (X0 + j) Y with
    | none => s
    | some (X, Y') => drawBits b X0 Y js (if b.getLsbD (7 - j) then xorPixel X Y' s else s)

/-- Row `i` of the sprite: its byte from `M[I + i]`; an OOB row draws nothing (R141, R142). -/
def drawRow (X0 Y0 : Nat) (s : State) (i : Nat) : State :=
  match memRead (s.i.toNat + i) s with
  | (none, s) => s
  | (some b, s) => drawBits b X0 (Y0 + i) (List.range 8) s

/-- DRW (R141): the origin is read before VF is set to 0, then the rows are drawn top to bottom. -/
def execDrw (x y n : Nibble) (s : State) : Host.Outcome State Fault Refusal :=
  let X0 := (readV x s).toNat % 64
  let Y0 := (readV y s).toNat % 32
  .next ((List.range n.toNat).foldl (drawRow X0 Y0) (writeFlag 0 s))

end Sys2Proof.Machine
end

