-- ==== Sys2Proof/Machine/Flow.lean ====
section
/-! DEFINITION. Machine/Flow.lean: 00EE, 1nnn, 2nnn, Bnnn (42_flow.md). -/

namespace Sys2Proof.Machine

/-- RET (R160): pop into the pc; with an empty stack an event and a no-op cycle (the spec's own choice D12, log 1). -/
def execRet (s : State) : Host.Outcome State Fault Refusal :=
  match s.stack with
  | [] => .next (raiseHere .stackUnderflow none none s)
  | target :: rest => .next (jump target (s.setStack rest))

/-- JP (R161). -/
def execJp (nnn : Addr12) (s : State) : Host.Outcome State Fault Refusal := .next (jump (zextNNN nnn) s)

/-- CALL (R162): push `pc + 2` and jump; with a full bounded stack an event, no push and no jump. -/
def execCall (nnn : Addr12) (s : State) : Host.Outcome State Fault Refusal :=
  if stackFull s then .next (raiseHere .stackOverflow none none s)
  else .next (jump (zextNNN nnn) (push (s.pc + 2) s))

/-- JP V0, nnn (R163). -/
def execJpOff (nnn : Addr12) (x : Nibble) (nn : Byte) (s : State) : Host.Outcome State Fault Refusal :=
  .next (jump (offsetTarget nnn x nn s) s)

end Sys2Proof.Machine
end

