-- ==== Sys2Proof/Machine/Index.lean ====
section
/-! DEFINITION. Machine/Index.lean: Annn, Fx1E, Fx29, Fx33, Fx55, Fx65 (45_index_memory.md). -/

namespace Sys2Proof.Machine

/-- LD I, nnn (R230). -/
def execLdI (nnn : Addr12) (s : State) : Host.Outcome State Fault Refusal := .next (s.setI (zextNNN nnn))

/-- ADD I, Vx: the sum on integers; past 0xFFF it wraps modulo 4096 and sets VF, else VF is unchanged (R231). -/
def execAddI (x : Nibble) (s : State) : Host.Outcome State Fault Refusal :=
  let sum := s.i.toNat + (readV x s).toNat
  if sum > 0xFFF then .next (writeFlag 1 (s.setI (BitVec.ofNat 16 (sum % 4096))))
  else .next (s.setI (BitVec.ofNat 16 sum))

/-- LD F, Vx (R232). -/
def execLdF (x : Nibble) (s : State) : Host.Outcome State Fault Refusal := .next (s.setI (glyphAddress (readV x s)))

/-- LD B, Vx: hundreds, tens and ones, each byte checked on its own (R233). -/
def execLdB (x : Nibble) (s : State) : Host.Outcome State Fault Refusal :=
  let b := readV x s
  let a := s.i.toNat
  .next (memWrite (a + 2) (b % 10) (memWrite (a + 1) (b / 10 % 10) (memWrite a (b / 100) s)))

/-- Byte `k` of Fx55: store `V[k]`, then the quirk's increment (R234). -/
def storeV (s : State) (k : Nat) : State :=
  postIncrement (memWrite (indexAddress k s) (readV (BitVec.ofNat 4 k) s) s)

/-- LD [I], Vx: V0 first (R234). -/
def execLdMemVx (x : Nibble) (s : State) : Host.Outcome State Fault Refusal :=
  .next ((List.range (x.toNat + 1)).foldl storeV s)

/-- Byte `k` of Fx65: load `V[k]`, which an OOB byte leaves unchanged, then the quirk's increment (R235). -/
def loadV (s : State) (k : Nat) : State :=
  match memRead (indexAddress k s) s with
  | (none, s) => postIncrement s
  | (some b, s) => postIncrement (writeV (BitVec.ofNat 4 k) b s)

/-- LD Vx, [I]: V0 first (R235). -/
def execLdVxMem (x : Nibble) (s : State) : Host.Outcome State Fault Refusal :=
  .next ((List.range (x.toNat + 1)).foldl loadV s)

end Sys2Proof.Machine
end

