-- ==== Sys2Proof/Machine/Skip.lean ====
section
/-! DEFINITION. Machine/Skip.lean: 3xnn, 4xnn, 5xy0, 9xy0 (43_skip.md). -/

namespace Sys2Proof.Machine

/-- SE Vx, nn (R180). -/
def execSeImm (x : Nibble) (nn : Byte) (s : State) : Host.Outcome State Fault Refusal :=
  .next (skipIf (readV x s == nn) s)

/-- SNE Vx, nn (R181). -/
def execSneImm (x : Nibble) (nn : Byte) (s : State) : Host.Outcome State Fault Refusal :=
  .next (skipIf (readV x s != nn) s)

/-- SE Vx, Vy (R182). -/
def execSeReg (x y : Nibble) (s : State) : Host.Outcome State Fault Refusal :=
  .next (skipIf (readV x s == readV y s) s)

/-- SNE Vx, Vy (R183). -/
def execSneReg (x y : Nibble) (s : State) : Host.Outcome State Fault Refusal :=
  .next (skipIf (readV x s != readV y s) s)

end Sys2Proof.Machine
end

