-- ==== Sys2Proof/Machine/TimerKeyboard.lean ====
section
/-! DEFINITION. Machine/TimerKeyboard.lean: Ex9E, ExA1, Fx07, Fx0A, Fx15, Fx18 (46_timer_keyboard.md). -/

namespace Sys2Proof.Machine

/-- SKP Vx (R260). -/
def execSkp (x : Nibble) (s : State) : Host.Outcome State Fault Refusal :=
  .next (skipIf (keyDown (readV x s) s) s)

/-- SKNP Vx (R261). -/
def execSknp (x : Nibble) (s : State) : Host.Outcome State Fault Refusal :=
  .next (skipIf (!keyDown (readV x s) s) s)

/-- LD Vx, DT (R262). -/
def execLdVxDt (x : Nibble) (s : State) : Host.Outcome State Fault Refusal := .next (writeV x s.dt s)

/-- LD Vx, K: the lowest pressed key, or hold the pc so that the same word runs again (R263). -/
def execLdVxK (x : Nibble) (s : State) : Host.Outcome State Fault Refusal :=
  match lowestKey s with
  | some k => .next (writeV x (BitVec.ofNat 8 k) s)
  | none => .next (hold s)

/-- LD DT, Vx (R264). -/
def execLdDtVx (x : Nibble) (s : State) : Host.Outcome State Fault Refusal := .next (s.setDt (readV x s))

/-- LD ST, Vx (R265). -/
def execLdStVx (x : Nibble) (s : State) : Host.Outcome State Fault Refusal := .next (s.setSt (readV x s))

end Sys2Proof.Machine
end

