-- ==== Sys2Proof/Machine/Cycle.lean ====
section
/-! DEFINITION. Machine/Cycle.lean: one executor cycle (40_cycle.md R120), the control state machine (60_exceptions.md R315),
and one turn of whichever agent moves next (00_scope.md R7). -/

namespace Sys2Proof.Machine

/-- Can the fetch at `pc` reach both bytes? "A fetch needs both bytes in bounds" (R122). -/
abbrev fetchable (pc : Word) : Prop := pc.toNat ≤ 0xFFE

/-- `Decode((M[pc] << 8) | M[pc + 1])` (R120). -/
def fetchDecode (s : State) : Decoded := decodeBytes (byteAt s.pc.toNat s) (byteAt (s.pc.toNat + 1) s)

/-- FETCH_OOB: no instruction, `pc <- pc + 2` (R122). -/
def fetchFails (s : State) : State := bumpPc (raiseHere .fetchOob none none s)

/-- Execute of an UNKNOWN word: the event names the word and the pc, and nothing else happens (R125). -/
def execUnknown (w : Word) (s : State) : State := raiseHere .unknownOpcode (some w) none s

/-- "if advance = 1: pc <- (pc + 2) mod 2^16" (R124). -/
def defaultAdvance (s : State) : State := if s.advance then bumpPc s else s

/-- Go on with `f` after a next state; a stop stays a stop. -/
def thenNext (o : Host.Outcome State Fault Refusal) (f : State → State) : Host.Outcome State Fault Refusal :=
  match o with
  | .next s => .next (f s)
  | .fault r => .fault r
  | .refused r => .refused r

/-- One cycle: set `advance`, fetch, decode, execute, advance (R120, R121). -/
def cycle (s : State) : Host.Outcome State Fault Refusal :=
  let s := s.setAdvance true
  if fetchable s.pc then
    match fetchDecode s with
    | .unknown w => .next (defaultAdvance (execUnknown w s))
    | .known i => thenNext (exec i s) defaultAdvance
  else .next (fetchFails s)

/-- Start, and the Pause/Resume toggle: the control state they lead to (R315). -/
def startCtl : Ctl → Ctl
  | .idle => .run
  | .run => .run
  | .pause => .pause
  | .loading => .loading

/-- The Pause/Resume toggle (R315, R316). -/
def pauseResumeCtl : Ctl → Ctl
  | .idle => .idle
  | .run => .pause
  | .pause => .run
  | .loading => .loading

/-- One turn (R315). A turn that the control state does not allow has no effect (log 11). -/
def takeTurn (t : Turn) (s : State) : Host.Outcome State Fault Refusal :=
  match t with
  | .cycle => if s.ctl = .run then cycle s else .next s
  | .tick => .next (if s.ctl = .run then timerTick s else s)
  | .keyWrite k pressed => .next (setKeySlot k pressed s)
  | .start => .next (s.setCtl (startCtl s.ctl))
  | .pauseResume => .next (s.setCtl (pauseResumeCtl s.ctl))
  | .stepOnce => if s.ctl = .idle ∨ s.ctl = .pause then cycle s else .next s
  | .reset => .next (resetCore s)
  | .romDeliver rom => .next (if s.ctl = .loading then loadRom rom s else s)
  | .quirksWrite port => .next (if s.ctl = .idle then s.setQuirks (quirksOfPort port) else s)
  | .batchSizeWrite n => .next (if s.ctl = .idle then s.setParams { s.params with batchSize := n } else s)
  | .timerHzWrite n => .next (if s.ctl = .idle then s.setParams { s.params with timerHz := n } else s)

/-- The next agent step: the schedule's first turn; with none left, the executor in RUN, and otherwise the machine idles
until the host moves (R317; log 9, log 10). -/
def nextTurn (s : State) : Host.Outcome State Fault Refusal :=
  match s.schedule with
  | [] => if s.ctl = .run then cycle s else .next s
  | t :: rest => takeTurn t (s.setSchedule rest)

end Sys2Proof.Machine
end

