-- ==== Sys2Proof/Machine/Step.lean ====
section
/-! DEFINITION. Machine/Step.lean: the machine's one step, and the host's way to place an instruction where the next step
fetches. -/

namespace Sys2Proof.Machine

/-- One atomic step of whichever agent moves next (00_scope.md R7). -/
def step (s : State) : Host.Outcome State Fault Refusal := nextTurn s

/-- `s` with the instruction word `w` where `step` fetches next, in RUN with no turn before the executor's (log 12). -/
def State.withFetchWord (s : State) (nbits w : Nat) : State := placeWord (tableWord nbits w) s

end Sys2Proof.Machine
end

