-- ==== Sys2Proof/Safety.lean ====
section
/-! DEFINITION. Safety.lean: the terms the statements are written in: whose turn it is, what may change, which cells and bytes an
instruction reaches, which events it raises, and the invariant of the machine. -/

namespace Sys2Proof.Machine

/-! ### Whose turn it is -/

/-- In `s` the executor takes the next step, and `s'` is `s` with that turn taken off the schedule: in RUN by default or by a
`cycle` turn, in IDLE or PAUSE by Step (60_exceptions.md R315). -/
def executorTurn (s s' : State) : Prop :=
  (s.schedule = [] ∧ s.ctl = .run ∧ s' = s) ∨
  (∃ rest, s.schedule = .cycle :: rest ∧ s.ctl = .run ∧ s' = { s with schedule := rest }) ∨
  (∃ rest, s.schedule = .stepOnce :: rest ∧ (s.ctl = .idle ∨ s.ctl = .pause) ∧ s' = { s with schedule := rest })

/-- The word at the pc, its first byte bits 15..8 (20_memory.md R69). -/
def wordAtPc (s : State) : Word := byteAt s.pc.toNat s ++ byteAt (s.pc.toNat + 1) s

/-! ### Frames -/

/-- Every byte reads as before. -/
def sameBytes (s t : State) : Prop := ∀ a, byteAt a t = byteAt a s

/-- Only registers of `R` may differ; every byte of memory and every other field is as before. -/
def onlyRegsChange (R : Nibble → Prop) (s t : State) : Prop :=
  (∀ r, ¬ R r → readV r t = readV r s) ∧ sameBytes s t ∧ t = { s with v := t.v }

/-- The registers an instruction may write: R21's table of writers. -/
def mayWriteReg : Instr → Nibble → Prop
  | .ldImm x _, r | .addImm x _, r | .ldReg x _, r | .orReg x _, r | .andReg x _, r | .xorReg x _, r => r = x
  | .rnd x _, r | .ldVxDt x, r | .ldVxK x, r => r = x
  | .addReg x _, r | .sub x _, r | .shr x _, r | .subn x _, r | .shl x _, r => r = x ∨ r = VF
  | .drw _ _ _, r | .addI _, r => r = VF
  | .ldVxMem x, r => r.toNat ≤ x.toNat
  | .cls, _ | .ret, _ | .jp _, _ | .call _, _ | .seImm _ _, _ | .sneImm _ _, _ | .seReg _ _, _ => False
  | .sneReg _ _, _ | .ldI _, _ | .jpOff _ _ _, _ | .skp _, _ | .sknp _, _ | .ldDtVx _, _ => False
  | .ldStVx _, _ | .ldF _, _ | .ldB _, _ | .ldMemVx _, _ => False

/-! ### Bytes, cells and events -/

/-- The value 8xy6 and 8xyE shift: V[y] with `shift_VX_is_VY`, else V[x] (44_alu.md R208, R210). -/
def shiftOperand (x y : Nibble) (s : State) : Byte := if s.quirks.shiftVxIsVy then readV y s else readV x s

/-- The address of byte `k` of Fx55 and Fx65, from the state the instruction starts in: with `store_increment_ir` I has been
incremented `k` times modulo 2^16, without it `I + k` is an integer (45_index_memory.md R234, R235; log 15, log 16). -/
def transferAddress (s : State) (k : Nat) : Nat :=
  if s.quirks.storeIncrementIr then (s.i.toNat + k) % 65536 else s.i.toNat + k

/-- I after Fx55 or Fx65 has moved `n` bytes (R234, R235). -/
def indexAfter (s : State) (n : Nat) : Word := if s.quirks.storeIncrementIr then s.i + BitVec.ofNat 16 n else s.i

/-- The READ_OOB event of one byte, raised by the instruction at `pc` (20_memory.md R63, 60_exceptions.md R301);
no word, which R301 leaves to a realisation (log 14). -/
def readOobEvent (pc : Word) (a : Nat) : Diag := { code := .readOob, pc := some pc, word := none, addr := some a }

/-- The WRITE_OOB event of one byte (R64, R301); no word (log 14). -/
def writeOobEvent (pc : Word) (a : Nat) : Diag := { code := .writeOob, pc := some pc, word := none, addr := some a }

/-- The ROM_OOB event of one byte, with no pc (70_reset_and_hazards.md R341, R301). -/
def romOobEvent (a : Nat) : Diag := { code := .romOob, pc := none, word := none, addr := some a }

/-- The events of the first `n` bytes at `address 0, address 1, …`: one for each out-of-bounds byte, in order (R65, R303). -/
def oobEvents (event : Nat → Diag) (address : Nat → Nat) (n : Nat) : List Diag :=
  (((List.range n).map address).filter fun a => ¬ inBounds a).map event

/-- A set bit of row `i < n` of the sprite at I lands on cell (X, Y), the sprite's origin being (X0, Y0): bit j of a row is
`b[7 - j]` in column X0 + j, reduced modulo the grid with `draw_sprite_wrap` and dropped outside it without (41_display.md
R143, R144); a row whose byte is out of bounds has no bits (R142). -/
def spriteCovers (s : State) (X0 Y0 n : Nat) (X : Fin 64) (Y : Fin 32) : Prop :=
  ∃ i < n, ∃ j < 8, inBounds (s.i.toNat + i) ∧ (byteAt (s.i.toNat + i) s).getLsbD (7 - j) = true ∧
    if s.quirks.drawSpriteWrap then (X0 + j) % 64 = X.val ∧ (Y0 + i) % 32 = Y.val
    else X0 + j = X.val ∧ Y0 + i = Y.val

/-! ### Invariants -/

/-- The shape R301 and R302 give an event of each code. -/
def Diag.wf (d : Diag) : Prop :=
  match d.code with
  | .unknownOpcode => (∃ w, d.word = some w ∧ wordMatches w = false) ∧ d.pc.isSome ∧ d.addr = none
  | .fetchOob => (∃ p, d.pc = some p ∧ p.toNat > 0xFFE) ∧ d.word = none ∧ d.addr = none
  | .readOob | .writeOob => d.pc.isSome ∧ ∃ a, d.addr = some a ∧ a > 0xFFF
  | .stackUnderflow | .stackOverflow => d.pc.isSome ∧ d.addr = none
  | .romOob => d.pc = none ∧ d.word = none ∧ ∃ a, d.addr = some a ∧ a > 0xFFF

/-- The stack is within the capacity of the realisation (10_state.md R31). -/
abbrev stackFits (s : State) : Prop := ∀ d ∈ s.params.stackDepth, s.stack.length ≤ d

/-- The machine's invariant: parameters as R31 allows them, memory in canonical form, the stack within its capacity. -/
abbrev State.Inv (s : State) : Prop := s.params.wf ∧ Memory.wf s.params.font s.mem ∧ stackFits s

/-! ### End of a run -/

/-- The executor stands at a self-jump, R343's case (a): it fetches a `1nnn` whose nnn equals the pc. -/
abbrev atSelfJump (s : State) : Prop := fetchable s.pc ∧ wordAtPc s = 0x1#4 ++ s.pc.extractLsb' 0 12

end Sys2Proof.Machine
end

