-- ==== Sys2Proof/Certificates/Slice0/Obligations.lean ====
section
/-! DEFINITION. Certificates/Slice0/Obligations.lean: the statements for the provers. `D<n>` is a decision of
spec/92_eei_decisions.md; a clause that rests on a decision the spec calls its own choice, or on a log entry, says so. -/

open Sys2Proof Sys2Proof.Machine

/-! ### Encoding and decoding -/

/-- Decoding the word of a well-formed instruction gives the instruction back, every operand at every value (30_encoding.md
R91, R93, R95). -/
def Obligations.DecodeInvertsEncode : Prop :=
  ∀ i : Instr, i.wellFormed = true → decode (encode i) = .known i

/-- The other direction: a decoded word is the word its instruction encodes to, and the instruction is well formed; so every
word has one meaning (R94, R99). -/
def Obligations.EncodeInvertsDecode : Prop :=
  ∀ (w : Word) (i : Instr), decode w = .known i → encode i = w ∧ i.wellFormed = true

/-- R94: a word of no row is UNKNOWN, a word of a row decodes to that row's instruction, and at most one row accepts a word. -/
def Obligations.DecoderAgreesWithTheOpcodeTable : Prop :=
  (∀ w, wordMatches w = false → decode w = .unknown w) ∧
  (∀ w, wordMatches w = true → ∃ i, decode w = .known i ∧ i.row.accepts w = true) ∧
  (∀ w, ∀ r ∈ opcodeRows, ∀ r' ∈ opcodeRows, r.accepts w = true → r'.accepts w = true → r = r')

/-- Words the spec writes out (its examples in files 41–46) decode to the instructions they stand for. -/
def Obligations.SpecWordsDecodeAsWritten : Prop :=
  decode 0xD015 = .known (.drw 0 1 5) ∧ decode 0x2204 = .known (.call 0x204) ∧
  decode 0xB234 = .known (.jpOff 0x234 0x2 0x34) ∧ decode 0x3342 = .known (.seImm 3 0x42) ∧
  decode 0x801E = .known (.shl 0 1) ∧ decode 0xC10F = .known (.rnd 1 0x0F) ∧ decode 0xF155 = .known (.ldMemVx 1) ∧
  decode 0xE0A1 = .known (.sknp 0) ∧ decode 0x5121 = .unknown 0x5121 ∧ decode 0x0000 = .unknown 0x0000

/-! ### The cycle -/

/-- On the executor's turn, with both bytes of the fetch in bounds and the big-endian word at the pc decoding to `i`, the step
is: set `advance`, execute `i`, then add 2 to the pc if `advance` is still set (40_cycle.md R120, R121, R124). Whose turn it
is comes from the model's schedule (log 9) and the control states (D21, D36). -/
def Obligations.StepRunsTheDecodedInstruction : Prop :=
  ∀ (s s' t : State) (i : Instr), executorTurn s s' → s.pc.toNat ≤ 0xFFE →
    decode (byteAt s.pc.toNat s ++ byteAt (s.pc.toNat + 1) s) = .known i →
    exec i { s' with advance := true } = .next t →
    step s = .next (if t.advance then { t with pc := t.pc + 2 } else t)

/-- A fetch that does not fit raises FETCH_OOB and is a no-op cycle. The spec's own choice D7 (40_cycle.md, text of R122), the
pc modulo 2^16 its own choice D3, the event its own choice D22. -/
def Obligations.FetchOutOfBoundsIsANoOpCycle : Prop :=
  ∀ s s' : State, executorTurn s s' → s.pc.toNat > 0xFFE →
    step s = .next { s' with
      advance := true
      pc := s.pc + 2
      diags := s.diags ++ [{ code := .fetchOob, pc := some s.pc, word := none, addr := none }] }

/-- R96: which words are UNKNOWN; R125: executing one raises UNKNOWN_OPCODE with the pc and the word and does nothing else,
so the default advance follows. The event's record is the spec's own choice D22. -/
def Obligations.UnknownWordsAreNoOpCycles : Prop :=
  (∀ w : Word, (∃ u, decode w = .unknown u) ↔
    (w.toNat ≤ 0x0FFF ∧ w ≠ 0x00E0 ∧ w ≠ 0x00EE) ∨
    ((fieldOp w = 0x5 ∨ fieldOp w = 0x9) ∧ fieldN w ≠ 0x0) ∨
    (fieldOp w = 0x8 ∧ fieldN w ∈ [0x8, 0x9, 0xA, 0xB, 0xC, 0xD, 0xF]) ∨
    (fieldOp w = 0xE ∧ fieldNN w ∉ [0x9E, 0xA1]) ∨
    (fieldOp w = 0xF ∧ fieldNN w ∉ [0x07, 0x0A, 0x15, 0x18, 0x1E, 0x29, 0x33, 0x55, 0x65])) ∧
  (∀ (s s' : State) (u : Word), executorTurn s s' → s.pc.toNat ≤ 0xFFE → decode (wordAtPc s) = .unknown u →
    step s = .next { s' with
      advance := true
      pc := s.pc + 2
      diags := s.diags ++ [{ code := .unknownOpcode, pc := some s.pc, word := some (wordAtPc s), addr := none }] })

/-- Fetch is coherent with stores (20_memory.md R76, 70_reset_and_hazards.md R345, both derived by the spec): an Fx55 that
stores V0 and V1 over the next instruction makes them the word that the next cycle fetches. That with `store_increment_ir`
on V0 goes to I and V1 to I + 1 rests on log 16 (DEDUCED; D17, C6): the increment follows each byte. -/
def Obligations.StoredWordIsTheNextFetched : Prop :=
  ∀ (s s' : State) (x : Nibble), executorTurn s s' → wordAtPc s = 0xF#4 ++ x ++ 0x55#8 → 1 ≤ x.toNat →
    s.pc.toNat + 3 ≤ 0xFFF → s.i.toNat = s.pc.toNat + 2 →
    ∃ t, step s = .next t ∧ t.pc = s.pc + 2 ∧ wordAtPc t = readV 0 s ++ readV 1 s

/-! ### Display -/

/-- CLS (41_display.md R140): every cell 0 whatever it was, nothing else changed, and the step moves the pc by 2. -/
def Obligations.ClsClearsTheGrid : Prop :=
  decode 0x00E0 = .known .cls ∧
  (∀ s : State, ∃ t, exec .cls s = .next t ∧ (∀ X Y, cell X Y t = false) ∧ sameBytes s t ∧ t = { s with fb := t.fb }) ∧
  (∀ s s' : State, executorTurn s s' → s.pc.toNat ≤ 0xFFE → wordAtPc s = 0x00E0 →
    ∃ t, step s = .next t ∧ t.pc = s.pc + 2)

/-- DRW (R143, R144): exactly the cells that a set sprite bit lands on are flipped, VF is 1 when one of them was 1 and 0
otherwise, and nothing else changes. The clause that an out-of-bounds row draws nothing and raises READ_OOB is the spec's
own choice D8, the event its own choice D22; that the event carries no word is the model's choice (log 14, DESIGN CHOICE).
-/
def Obligations.DrwXorsItsSprite : Prop :=
  ∀ (x y n : Nibble) (s : State), decode (0xD#4 ++ x ++ y ++ n) = .known (.drw x y n) ∧
    ∃ t, exec (.drw x y n) s = .next t ∧
      (∀ X Y, cell X Y t = true ↔ (cell X Y s = true ↔
        ¬ spriteCovers s ((readV x s).toNat % 64) ((readV y s).toNat % 32) n.toNat X Y)) ∧
      ((∃ X Y, spriteCovers s ((readV x s).toNat % 64) ((readV y s).toNat % 32) n.toNat X Y ∧ cell X Y s = true) →
        readV VF t = 1) ∧
      (¬ (∃ X Y, spriteCovers s ((readV x s).toNat % 64) ((readV y s).toNat % 32) n.toNat X Y ∧ cell X Y s = true) →
        readV VF t = 0) ∧
      (∀ r, r ≠ VF → readV r t = readV r s) ∧ sameBytes s t ∧
      t.diags = s.diags ++ oobEvents (readOobEvent s.pc) (s.i.toNat + ·) n.toNat ∧
      t = { s with v := t.v, fb := t.fb, diags := t.diags }

/-- Drawing the same sprite twice restores the grid, and the second draw sets VF exactly when the first turned a cell on
(95_test_vectors.md L1-4, the source's §8 property; R141 for both settings of the wrap quirk). x and y are not VF, which the
first draw writes. -/
def Obligations.DrawingTwiceRestoresTheGrid : Prop :=
  ∀ (x y n : Nibble) (s : State), x ≠ VF → y ≠ VF →
    ∃ t u, exec (.drw x y n) s = .next t ∧ exec (.drw x y n) t = .next u ∧ u.fb = s.fb ∧
      (readV VF u = 1 ↔ ∃ X Y, cell X Y s = false ∧ cell X Y t = true)

/-! ### Control transfer -/

/-- RET (42_flow.md R160): pops the return address into the pc. With an empty stack, an event and nothing else: the spec's
own choice D12 (event D22); that the event carries no word is the model's choice (log 14, DESIGN CHOICE). -/
def Obligations.RetPopsTheReturnAddress : Prop :=
  decode 0x00EE = .known .ret ∧
  (∀ (s : State) (target : Word) (rest : List Word), s.stack = target :: rest →
    exec .ret s = .next { s with pc := target, stack := rest, advance := false }) ∧
  (∀ s : State, s.stack = [] →
    exec .ret s = .next { s with
      diags := s.diags ++ [{ code := .stackUnderflow, pc := some s.pc, word := none, addr := none }] })

/-- JP (R161): the pc is nnn, zero-extended, and the default advance is suppressed. -/
def Obligations.JpSetsThePc : Prop :=
  ∀ (nnn : Addr12) (s : State), decode (0x1#4 ++ nnn) = .known (.jp nnn) ∧
    ∃ t, exec (.jp nnn) s = .next t ∧ t.pc.toNat = nnn.toNat ∧ t = { s with pc := t.pc, advance := false }

/-- CALL (R162): unless a bounded stack is full, pushes pc + 2 (modulo 2^16: the spec's own choice D3) and jumps; on a full
one raises STACK_OVERFLOW (event D22) with no push and no jump. That the event carries no word is the model's choice (log
14, DESIGN CHOICE); that a stack longer than its bound, which no run reaches, still takes a push rests on log 22 (DEDUCED).
-/
def Obligations.CallPushesTheReturnAddress : Prop :=
  ∀ (nnn : Addr12) (s : State), decode (0x2#4 ++ nnn) = .known (.call nnn) ∧
    (s.params.stackDepth ≠ some s.stack.length →
      ∃ t, exec (.call nnn) s = .next t ∧ t.pc.toNat = nnn.toNat ∧ t.stack = (s.pc + 2) :: s.stack ∧
        t = { s with pc := t.pc, stack := t.stack, advance := false }) ∧
    (s.params.stackDepth = some s.stack.length →
      exec (.call nnn) s = .next { s with
        diags := s.diags ++ [{ code := .stackOverflow, pc := some s.pc, word := none, addr := none }] })

/-- Bnnn (R163): nnn + V0 with `jump_with_offset_legacy`, else the literal x + nn + V[x] of the word's fields; no sum wraps.
The non-legacy clause assumes the literal formula (log 17, DEDUCED; D28, C1, U2): it is the spec's reading of a formula that
its source calls likely incorrect. -/
def Obligations.JpOffFollowsItsQuirk : Prop :=
  (∀ nnn : Addr12, decode (0xB#4 ++ nnn) = .known (.jpOff nnn (nnn.extractLsb' 8 4) (nnn.extractLsb' 0 8))) ∧
  (∀ (nnn : Addr12) (x : Nibble) (nn : Byte) (s : State), ∃ t, exec (.jpOff nnn x nn) s = .next t ∧
    (s.quirks.jumpWithOffsetLegacy = true → t.pc.toNat = nnn.toNat + (readV 0 s).toNat) ∧
    (s.quirks.jumpWithOffsetLegacy = false → t.pc.toNat = x.toNat + nn.toNat + (readV x s).toNat) ∧
    t = { s with pc := t.pc, advance := false })

/-! ### Skips -/

/-- The register-compare skips (43_skip.md R180–R183): during Execute the pc moves by 2 when the condition holds, and nothing
else changes. -/
def Obligations.SkipsCompareRegisters : Prop :=
  (∀ (x : Nibble) (nn : Byte) (s : State), decode (0x3#4 ++ x ++ nn) = .known (.seImm x nn) ∧
    exec (.seImm x nn) s = .next (if readV x s = nn then { s with pc := s.pc + 2 } else s)) ∧
  (∀ (x : Nibble) (nn : Byte) (s : State), decode (0x4#4 ++ x ++ nn) = .known (.sneImm x nn) ∧
    exec (.sneImm x nn) s = .next (if readV x s = nn then s else { s with pc := s.pc + 2 })) ∧
  (∀ (x y : Nibble) (s : State), decode (0x5#4 ++ x ++ y ++ 0x0#4) = .known (.seReg x y) ∧
    exec (.seReg x y) s = .next (if readV x s = readV y s then { s with pc := s.pc + 2 } else s)) ∧
  (∀ (x y : Nibble) (s : State), decode (0x9#4 ++ x ++ y ++ 0x0#4) = .known (.sneReg x y) ∧
    exec (.sneReg x y) s = .next (if readV x s = readV y s then s else { s with pc := s.pc + 2 }))

/-- R126: with the default advance, a skip that holds moves the pc by 4 in total, past one word whatever it is, and one that
does not hold by 2. `c` is the condition of the fetched skip. -/
def Obligations.SkipMovesThePcByFour : Prop :=
  ∀ (s s' : State) (i : Instr) (c : Prop), executorTurn s s' → s.pc.toNat ≤ 0xFFE → decode (wordAtPc s) = .known i →
    ((∃ x nn, i = .seImm x nn ∧ (c ↔ readV x s = nn)) ∨ (∃ x nn, i = .sneImm x nn ∧ (c ↔ readV x s ≠ nn)) ∨
      (∃ x y, i = .seReg x y ∧ (c ↔ readV x s = readV y s)) ∨ (∃ x y, i = .sneReg x y ∧ (c ↔ readV x s ≠ readV y s)) ∨
      (∃ x, i = .skp x ∧ (c ↔ keyDown (readV x s) s = true)) ∨ (∃ x, i = .sknp x ∧ (c ↔ keyDown (readV x s) s = false))) →
    ∃ t, step s = .next t ∧ (c → t.pc = s.pc + 4) ∧ (¬ c → t.pc = s.pc + 2) ∧ t = { s' with pc := t.pc, advance := true }

/-! ### Arithmetic and logic -/

/-- LD Vx, nn (44_alu.md R200). -/
def Obligations.LdImmLoadsTheImmediate : Prop :=
  ∀ (x : Nibble) (nn : Byte) (s : State), decode (0x6#4 ++ x ++ nn) = .known (.ldImm x nn) ∧
    ∃ t, exec (.ldImm x nn) s = .next t ∧ readV x t = nn ∧ onlyRegsChange (· = x) s t

/-- ADD Vx, nn (R201): modulo 256, VF unaffected unless it is the destination. -/
def Obligations.AddImmWrapsWithoutFlag : Prop :=
  ∀ (x : Nibble) (nn : Byte) (s : State), decode (0x7#4 ++ x ++ nn) = .known (.addImm x nn) ∧
    ∃ t, exec (.addImm x nn) s = .next t ∧ (readV x t).toNat = ((readV x s).toNat + nn.toNat) % 256 ∧
      onlyRegsChange (· = x) s t

/-- LD Vx, Vy (R202). -/
def Obligations.LdRegCopiesARegister : Prop :=
  ∀ (x y : Nibble) (s : State), decode (0x8#4 ++ x ++ y ++ 0x0#4) = .known (.ldReg x y) ∧
    ∃ t, exec (.ldReg x y) s = .next t ∧ readV x t = readV y s ∧ onlyRegsChange (· = x) s t

/-- OR, AND, XOR (R203, R204, R205): bit by bit, no flag. -/
def Obligations.LogicIsBitwiseWithoutFlag : Prop :=
  ∀ (x y : Nibble) (s : State),
    (decode (0x8#4 ++ x ++ y ++ 0x1#4) = .known (.orReg x y) ∧ ∃ t, exec (.orReg x y) s = .next t ∧
      (∀ k < 8, (readV x t).getLsbD k = ((readV x s).getLsbD k || (readV y s).getLsbD k)) ∧ onlyRegsChange (· = x) s t) ∧
    (decode (0x8#4 ++ x ++ y ++ 0x2#4) = .known (.andReg x y) ∧ ∃ t, exec (.andReg x y) s = .next t ∧
      (∀ k < 8, (readV x t).getLsbD k = ((readV x s).getLsbD k && (readV y s).getLsbD k)) ∧ onlyRegsChange (· = x) s t) ∧
    (decode (0x8#4 ++ x ++ y ++ 0x3#4) = .known (.xorReg x y) ∧ ∃ t, exec (.xorReg x y) s = .next t ∧
      (∀ k < 8, (readV x t).getLsbD k = ((readV x s).getLsbD k ^^ (readV y s).getLsbD k)) ∧ onlyRegsChange (· = x) s t)

/-- ADD Vx, Vy (R206): the sum modulo 256, VF the carry. That VF ends as the flag with x = F assumes that the flag is
written last (log 18, DEDUCED; R22, D14, U19). -/
def Obligations.AddRegSetsTheCarry : Prop :=
  ∀ (x y : Nibble) (s : State), decode (0x8#4 ++ x ++ y ++ 0x4#4) = .known (.addReg x y) ∧
    ∃ t, exec (.addReg x y) s = .next t ∧
      (x ≠ VF → (readV x t).toNat = ((readV x s).toNat + (readV y s).toNat) % 256) ∧
      (readV VF t).toNat = (if (readV x s).toNat + (readV y s).toNat > 255 then 1 else 0) ∧
      onlyRegsChange (fun r => r = x ∨ r = VF) s t

/-- SUB and SUBN (R207, R209): the difference modulo 256, VF = 1 when there is no borrow. That VF ends as the flag with x =
F assumes that the flag is written last (log 18, DEDUCED; R22, D14, U19). -/
def Obligations.SubtractionsSetNoBorrow : Prop :=
  ∀ (x y : Nibble) (s : State),
    (decode (0x8#4 ++ x ++ y ++ 0x5#4) = .known (.sub x y) ∧ ∃ t, exec (.sub x y) s = .next t ∧
      (x ≠ VF → ((readV x t).toNat : Int) = ((readV x s).toNat - (readV y s).toNat : Int) % 256) ∧
      (readV VF t).toNat = (if (readV x s).toNat ≥ (readV y s).toNat then 1 else 0) ∧
      onlyRegsChange (fun r => r = x ∨ r = VF) s t) ∧
    (decode (0x8#4 ++ x ++ y ++ 0x7#4) = .known (.subn x y) ∧ ∃ t, exec (.subn x y) s = .next t ∧
      (x ≠ VF → ((readV x t).toNat : Int) = ((readV y s).toNat - (readV x s).toNat : Int) % 256) ∧
      (readV VF t).toNat = (if (readV y s).toNat ≥ (readV x s).toNat then 1 else 0) ∧
      onlyRegsChange (fun r => r = x ∨ r = VF) s t)

/-- SHR (R208): the quirk's operand halved, VF its old bit 0. That VF ends as the flag with x = F assumes that the flag is
written last (log 18, DEDUCED; R22, D14, U19). -/
def Obligations.ShrShiftsOutBitZero : Prop :=
  ∀ (x y : Nibble) (s : State), decode (0x8#4 ++ x ++ y ++ 0x6#4) = .known (.shr x y) ∧
    ∃ t, exec (.shr x y) s = .next t ∧
      (x ≠ VF → (readV x t).toNat = (shiftOperand x y s).toNat / 2) ∧
      (readV VF t).toNat = (shiftOperand x y s).toNat % 2 ∧
      onlyRegsChange (fun r => r = x ∨ r = VF) s t

/-- SHL (R210): the quirk's operand doubled modulo 256, VF its old bit 7. That VF ends as the flag with x = F assumes that
the flag is written last (log 18, DEDUCED; R22, D14, U19). -/
def Obligations.ShlShiftsOutBitSeven : Prop :=
  ∀ (x y : Nibble) (s : State), decode (0x8#4 ++ x ++ y ++ 0xE#4) = .known (.shl x y) ∧
    ∃ t, exec (.shl x y) s = .next t ∧
      (x ≠ VF → (readV x t).toNat = (shiftOperand x y s).toNat * 2 % 256) ∧
      (readV VF t).toNat = (shiftOperand x y s).toNat / 128 ∧
      onlyRegsChange (fun r => r = x ∨ r = VF) s t

/-- RND (R211): the next draw masked by nn, and exactly one draw taken. The draw itself is free. That it is
`Config.randomByte` at the counter `draws`, which the instruction moves by one, is the model's choice (log 8, DESIGN
CHOICE); the statement holds for every value of the counter. -/
def Obligations.RndMasksOneDraw : Prop :=
  ∀ (x : Nibble) (nn : Byte) (s : State), decode (0xC#4 ++ x ++ nn) = .known (.rnd x nn) ∧
    ∃ t, exec (.rnd x nn) s = .next t ∧ readV x t = Config.randomByte s.draws &&& nn ∧ (nn = 0x00 → readV x t = 0x00) ∧
      (nn = 0xFF → readV x t = Config.randomByte s.draws) ∧ (∀ r, r ≠ x → readV r t = readV r s) ∧ sameBytes s t ∧
      t = { s with v := t.v, draws := s.draws + 1 }

/-! ### Index register and memory -/

/-- LD I, nnn (45_index_memory.md R230). -/
def Obligations.LdISetsTheIndex : Prop :=
  ∀ (nnn : Addr12) (s : State), decode (0xA#4 ++ nnn) = .known (.ldI nnn) ∧
    ∃ t, exec (.ldI nnn) s = .next t ∧ t.i.toNat = nnn.toNat ∧ sameBytes s t ∧ t = { s with i := t.i }

/-- ADD I, Vx (R231): the sum, or past 0xFFF the sum modulo 4096 with VF = 1. The clause that VF is not written otherwise is
an assumption (log 19, DEDUCED; D15, U18). -/
def Obligations.AddIWrapsPastTheAddressSpace : Prop :=
  ∀ (x : Nibble) (s : State), decode (0xF#4 ++ x ++ 0x1E#8) = .known (.addI x) ∧
    ∃ t, exec (.addI x) s = .next t ∧
      (s.i.toNat + (readV x s).toNat > 0xFFF →
        t.i.toNat = (s.i.toNat + (readV x s).toNat) % 4096 ∧ readV VF t = 1 ∧ (∀ r, r ≠ VF → readV r t = readV r s)) ∧
      (s.i.toNat + (readV x s).toNat ≤ 0xFFF →
        t.i.toNat = s.i.toNat + (readV x s).toNat ∧ ∀ r, readV r t = readV r s) ∧
      sameBytes s t ∧ t = { s with v := t.v, i := t.i }

/-- LD F, Vx (R232): five times the low nibble of V[x]. -/
def Obligations.LdFPointsAtTheGlyph : Prop :=
  ∀ (x : Nibble) (s : State), decode (0xF#4 ++ x ++ 0x29#8) = .known (.ldF x) ∧
    ∃ t, exec (.ldF x) s = .next t ∧ t.i.toNat = (readV x s).toNat % 16 * 5 ∧ sameBytes s t ∧ t = { s with i := t.i }

/-- LD B, Vx: hundreds, tens and ones at I, I + 1, I + 2, each byte dropped on its own with a WRITE_OOB event when out of
bounds (R64, R65). That three bytes are always written is the spec's own choice D16 (log 20, DEDUCED), the event its own
choice D22; that the event carries no word is the model's choice (log 14). -/
def Obligations.LdBStoresThreeDigits : Prop :=
  ∀ (x : Nibble) (s : State), decode (0xF#4 ++ x ++ 0x33#8) = .known (.ldB x) ∧
    ∃ t, exec (.ldB x) s = .next t ∧
      (inBounds s.i.toNat → (byteAt s.i.toNat t).toNat = (readV x s).toNat / 100) ∧
      (inBounds (s.i.toNat + 1) → (byteAt (s.i.toNat + 1) t).toNat = (readV x s).toNat / 10 % 10) ∧
      (inBounds (s.i.toNat + 2) → (byteAt (s.i.toNat + 2) t).toNat = (readV x s).toNat % 10) ∧
      (∀ a, (∀ k < 3, inBounds (s.i.toNat + k) → a ≠ s.i.toNat + k) → byteAt a t = byteAt a s) ∧
      t.diags = s.diags ++ oobEvents (writeOobEvent s.pc) (s.i.toNat + ·) 3 ∧
      t = { s with mem := t.mem, diags := t.diags }

/-- LD [I], Vx (R234): V0..V[x] at the transfer addresses, every other byte unchanged, one WRITE_OOB for each out-of-bounds
byte in order (event D22), and I moved by x + 1 only with `store_increment_ir` (modulo 2^16: the spec's own choice D4).
Under the quirk the increment follows each byte (log 16, DEDUCED; D17, C6) and I wraps between bytes, as the pseudocode
reads against a corner-case sentence (log 15, DEDUCED). That the event carries no word is the model's choice (log 14, DESIGN
CHOICE). -/
def Obligations.LdMemVxStoresTheRegisters : Prop :=
  ∀ (x : Nibble) (s : State), decode (0xF#4 ++ x ++ 0x55#8) = .known (.ldMemVx x) ∧
    ∃ t, exec (.ldMemVx x) s = .next t ∧
      (∀ k : Nibble, k.toNat ≤ x.toNat → inBounds (transferAddress s k.toNat) →
        byteAt (transferAddress s k.toNat) t = readV k s) ∧
      (∀ a, (∀ k ≤ x.toNat, inBounds (transferAddress s k) → a ≠ transferAddress s k) → byteAt a t = byteAt a s) ∧
      t.i = indexAfter s (x.toNat + 1) ∧
      t.diags = s.diags ++ oobEvents (writeOobEvent s.pc) (transferAddress s) (x.toNat + 1) ∧
      t = { s with mem := t.mem, i := t.i, diags := t.diags }

/-- LD Vx, [I] (R235): V0..V[x] from the transfer addresses, every other register unchanged, I moved as Fx55 moves it
(modulo 2^16: the spec's own choice D4). That an out-of-bounds byte leaves its register unchanged is the spec's own choice
D8, its event D22. Under the quirk the increment follows each byte (log 16, DEDUCED; D17, C6) and I wraps between bytes (log
15, DEDUCED). That the event carries no word is the model's choice (log 14, DESIGN CHOICE). -/
def Obligations.LdVxMemLoadsTheRegisters : Prop :=
  ∀ (x : Nibble) (s : State), decode (0xF#4 ++ x ++ 0x65#8) = .known (.ldVxMem x) ∧
    ∃ t, exec (.ldVxMem x) s = .next t ∧
      (∀ k : Nibble, k.toNat ≤ x.toNat → inBounds (transferAddress s k.toNat) →
        readV k t = byteAt (transferAddress s k.toNat) s) ∧
      (∀ k : Nibble, k.toNat ≤ x.toNat → ¬ inBounds (transferAddress s k.toNat) → readV k t = readV k s) ∧
      (∀ r : Nibble, x.toNat < r.toNat → readV r t = readV r s) ∧ sameBytes s t ∧
      t.i = indexAfter s (x.toNat + 1) ∧
      t.diags = s.diags ++ oobEvents (readOobEvent s.pc) (transferAddress s) (x.toNat + 1) ∧
      t = { s with v := t.v, i := t.i, diags := t.diags }

/-- The round-trip law (95_test_vectors.md L1-3, the source's §8; R235): Fx55, any change of the registers, I put back, then
Fx65 with the same x restores V0..V[x], under either setting of `store_increment_ir`. The law holds under either reading of
the increment; the model has it follow each byte (log 16, DEDUCED; D17, C6). -/
def Obligations.StoreThenLoadRestoresTheRegisters : Prop :=
  ∀ (x : Nibble) (s : State) (regs : Vector Byte 16), s.i.toNat + x.toNat ≤ 0xFFF →
    ∃ t u, exec (.ldMemVx x) s = .next t ∧ exec (.ldVxMem x) { t with v := regs, i := s.i } = .next u ∧
      (∀ r : Nibble, r.toNat ≤ x.toNat → readV r u = readV r s) ∧ u.i = t.i ∧
      t.i.toNat = if s.quirks.storeIncrementIr then s.i.toNat + x.toNat + 1 else s.i.toNat

/-! ### Keyboard and timers -/

/-- SKP and SKNP follow Key(V[x]) (46_timer_keyboard.md R260, R261, R266): the slot for an index up to 15; for a larger one
KEY_OOR says released, or masks the index. -/
def Obligations.KeySkipsFollowTheKey : Prop :=
  ∀ (x : Nibble) (s : State), decode (0xE#4 ++ x ++ 0x9E#8) = .known (.skp x) ∧ decode (0xE#4 ++ x ++ 0xA1#8) = .known (.sknp x) ∧
    ((readV x s).toNat ≤ 0xF ∨ s.params.keyOor = .mask →
      exec (.skp x) s = .next (if keySlot (BitVec.ofNat 4 ((readV x s).toNat % 16)) s then { s with pc := s.pc + 2 } else s) ∧
      exec (.sknp x) s = .next (if keySlot (BitVec.ofNat 4 ((readV x s).toNat % 16)) s then s else { s with pc := s.pc + 2 })) ∧
    ((readV x s).toNat > 0xF → s.params.keyOor = .released →
      exec (.skp x) s = .next s ∧ exec (.sknp x) s = .next { s with pc := s.pc + 2 })

/-- Fx07, Fx15, Fx18 (R262, R264, R265). -/
def Obligations.TimerMovesCopyOneByte : Prop :=
  ∀ (x : Nibble) (s : State),
    (decode (0xF#4 ++ x ++ 0x07#8) = .known (.ldVxDt x) ∧
      ∃ t, exec (.ldVxDt x) s = .next t ∧ readV x t = s.dt ∧ onlyRegsChange (· = x) s t) ∧
    (decode (0xF#4 ++ x ++ 0x15#8) = .known (.ldDtVx x) ∧
      ∃ t, exec (.ldDtVx x) s = .next t ∧ t.dt = readV x s ∧ sameBytes s t ∧ t = { s with dt := t.dt }) ∧
    (decode (0xF#4 ++ x ++ 0x18#8) = .known (.ldStVx x) ∧
      ∃ t, exec (.ldStVx x) s = .next t ∧ t.st = readV x s ∧ sameBytes s t ∧ t = { s with st := t.st })

/-- Fx0A (R263): the lowest pressed key; with none pressed only `advance` is cleared, so the pc stays. -/
def Obligations.LdVxKTakesTheLowestKey : Prop :=
  ∀ (x : Nibble) (s : State), decode (0xF#4 ++ x ++ 0x0A#8) = .known (.ldVxK x) ∧
    (∀ k : Nibble, keySlot k s = true → (∀ j : Nibble, j.toNat < k.toNat → keySlot j s = false) →
      ∃ t, exec (.ldVxK x) s = .next t ∧ (readV x t).toNat = k.toNat ∧ onlyRegsChange (· = x) s t) ∧
    ((∀ k : Nibble, keySlot k s = false) → exec (.ldVxK x) s = .next { s with advance := false })

/-- A waiting Fx0A re-executes itself (R263; 95_test_vectors.md L2-K10): with no key pressed the step leaves everything but
`advance` and the taken turn as it was, so the same word is at the pc in the next cycle. -/
def Obligations.WaitingForAKeyRunsAgain : Prop :=
  ∀ (s s' : State) (x : Nibble), executorTurn s s' → s.pc.toNat ≤ 0xFFE → wordAtPc s = 0xF#4 ++ x ++ 0x0A#8 →
    (∀ k : Nibble, keySlot k s = false) → step s = .next { s' with advance := false }

/-! ### Agents other than the executor -/

/-- One timer tick (60_exceptions.md R307): in RUN both timers one less and never below 0, in one step. That outside RUN a
tick turn changes nothing and leaves the schedule is the model's choice (log 11, DESIGN CHOICE). -/
def Obligations.TimerTickCountsDown : Prop :=
  ∀ (s : State) (rest : List Turn), s.schedule = .tick :: rest →
    (s.ctl = .run → ∃ t, step s = .next t ∧ t.dt.toNat = s.dt.toNat - 1 ∧ t.st.toNat = s.st.toNat - 1 ∧
      t = { s with dt := t.dt, st := t.st, schedule := rest }) ∧
    (s.ctl ≠ .run → step s = .next { s with schedule := rest })

/-- The control state machine (text of R315; the spec's own choice D21, Step outside PAUSE D36): Start, Pause/Resume, and the
turns each state does not allow, which only leave the schedule (log 11); with no turn left and not in RUN the machine idles
(log 10). -/
def Obligations.ControlStateMachine : Prop :=
  ∀ s : State,
    (∀ rest, s.schedule = .start :: rest →
      step s = .next { s with schedule := rest, ctl := if s.ctl = .idle then .run else s.ctl }) ∧
    (∀ rest, s.schedule = .pauseResume :: rest →
      step s = .next { s with
        schedule := rest
        ctl := if s.ctl = .run then .pause else if s.ctl = .pause then .run else s.ctl }) ∧
    (∀ rest, s.schedule = .cycle :: rest ∨ s.schedule = .tick :: rest → s.ctl ≠ .run →
      step s = .next { s with schedule := rest }) ∧
    (∀ rest, s.schedule = .stepOnce :: rest → s.ctl = .run ∨ s.ctl = .loading →
      step s = .next { s with schedule := rest }) ∧
    (∀ rom rest, s.schedule = .romDeliver rom :: rest → s.ctl ≠ .loading → step s = .next { s with schedule := rest }) ∧
    (s.schedule = [] → s.ctl ≠ .run → step s = .next s)

/-- Step in IDLE or PAUSE is exactly the cycle the executor would take in RUN, and leaves the control state as it was (text of
R313; the spec's own choices D36, D37). -/
def Obligations.StepOnceIsOneCycle : Prop :=
  ∀ (s : State) (rest : List Turn), s.schedule = .stepOnce :: rest → s.ctl = .idle ∨ s.ctl = .pause →
    ∃ t, step s = .next t ∧ t.ctl = s.ctl ∧
      step { s with ctl := .run, schedule := .cycle :: rest } = .next { t with ctl := .run }

/-- In PAUSE nothing changes until Resume, except by Step, Reset and host keyboard writes, and a keyboard write changes only
KEY (R316). The model's choices (DESIGN CHOICE): a turn that PAUSE does not allow is dropped (log 11), and with no turn left
the step answers the same state (log 10). -/
def Obligations.PauseFreezesTheMachine : Prop :=
  ∀ s : State, s.ctl = .pause →
    (s.schedule = [] → step s = .next s) ∧
    (∀ turn rest, s.schedule = turn :: rest → turn ≠ .pauseResume → turn ≠ .stepOnce → turn ≠ .reset →
      (∀ k pressed, turn ≠ .keyWrite k pressed) → step s = .next { s with schedule := rest }) ∧
    (∀ k pressed rest, s.schedule = .keyWrite k pressed :: rest →
      ∃ t, step s = .next t ∧ t = { s with schedule := rest, key := t.key })

/-- The host's keyboard write sets one slot and nothing else, in every control state (R29, R310). -/
def Obligations.KeyWriteSetsOneSlot : Prop :=
  ∀ (s : State) (k : Nibble) (pressed : Bool) (rest : List Turn), s.schedule = .keyWrite k pressed :: rest →
    ∃ t, step s = .next t ∧ keySlot k t = pressed ∧ (∀ j, j ≠ k → keySlot j t = keySlot j s) ∧
      t = { s with schedule := rest, key := t.key }

/-- The configuration writes take effect only in IDLE, the quirk port bit by bit in R34's order (text of R34 and R315; the
spec's own choices D32, D21). That a write outside IDLE only leaves the schedule is the model's choice (log 11, DESIGN
CHOICE). -/
def Obligations.ConfigurationIsWrittenInIdle : Prop :=
  ∀ (s : State) (rest : List Turn),
    (∀ port, s.schedule = .quirksWrite port :: rest → s.ctl = .idle →
      step s = .next { s with
        schedule := rest
        quirks := { shiftVxIsVy := port.getLsbD 0, jumpWithOffsetLegacy := port.getLsbD 1,
                    storeIncrementIr := port.getLsbD 2, drawSpriteWrap := port.getLsbD 3 } }) ∧
    (∀ n, s.schedule = .batchSizeWrite n :: rest → s.ctl = .idle →
      step s = .next { s with schedule := rest, params := { s.params with batchSize := n } }) ∧
    (∀ n, s.schedule = .timerHzWrite n :: rest → s.ctl = .idle →
      step s = .next { s with schedule := rest, params := { s.params with timerHz := n } }) ∧
    (∀ port n, s.schedule = .quirksWrite port :: rest ∨ s.schedule = .batchSizeWrite n :: rest ∨
      s.schedule = .timerHzWrite n :: rest → s.ctl ≠ .idle → step s = .next { s with schedule := rest })

/-- Reset gives every piece of state the value R40 and R340 list and keeps QUIRKS, the parameters and the diagnostic stream. The
zeros of V0–VF, KEY and memory are the spec's own choice D13, LOADING D21, the kept stream D20; `draws` and `schedule` are the
model's own (log 8, log 9), and `advance` has no value between cycles (log 5). -/
def Obligations.ResetSetsEveryPieceOfState : Prop :=
  ∀ (s : State) (rest : List Turn), s.schedule = .reset :: rest →
    ∃ t, step s = .next t ∧ t.ctl = .loading ∧ (∀ r, readV r t = 0x00) ∧ t.i = 0x0000 ∧ t.pc = 0x0200 ∧ t.stack = [] ∧
      t.dt = 0x00 ∧ t.st = 0x00 ∧ (∀ X Y, cell X Y t = false) ∧ (∀ k, keySlot k t = false) ∧
      (∀ (d j : Nat) (hd : d < 16) (hj : j < 5), byteAt (5 * d + j) t = s.params.font[d][j]) ∧
      (∀ a, 80 ≤ a → byteAt a t = 0x00) ∧
      t.quirks = s.quirks ∧ t.params = s.params ∧ t.diags = s.diags ∧ t.draws = s.draws ∧ t.advance = s.advance ∧
      t.schedule = rest

/-- The ROM copy (70_reset_and_hazards.md R341): in LOADING the bytes go to 0x200 and up, a byte past 0xFFF is dropped with
its own ROM_OOB event, every other byte stays, and the control state becomes IDLE. The control states are the spec's own
choice D21, the event D22; that the copy is one atomic turn rests on log 13 (DEDUCED). -/
def Obligations.RomCopyFillsProgramMemory : Prop :=
  ∀ (s : State) (rom : List Byte) (rest : List Turn), s.schedule = .romDeliver rom :: rest → s.ctl = .loading →
    ∃ t, step s = .next t ∧
      (∀ (k : Nat) (hk : k < rom.length), 0x200 + k ≤ 0xFFF → byteAt (0x200 + k) t = rom[k]) ∧
      (∀ a, (∀ k < rom.length, 0x200 + k ≤ 0xFFF → a ≠ 0x200 + k) → byteAt a t = byteAt a s) ∧
      t.diags = s.diags ++ oobEvents romOobEvent (0x200 + ·) rom.length ∧
      t = { s with mem := t.mem, diags := t.diags, ctl := .idle, schedule := rest }

/-- Power-on behaves as a Reset with an empty ROM (text of R41; the spec's own choice D21): from any state, Reset and an
empty ROM give State.reset, but for what Reset keeps: QUIRKS and the parameters (R40, R340), the event stream (the spec's
own choice D20), and `advance`, `draws` and `schedule`, kept by the model's choice (log 5, log 8, log 9, DESIGN CHOICE). The
zeros of State.reset are D13. -/
def Obligations.PowerOnIsResetWithEmptyRom : Prop :=
  ∀ (s : State) (rest : List Turn), s.schedule = .reset :: .romDeliver [] :: rest →
    ∃ t u, step s = .next t ∧ step t = .next u ∧
      u = { State.reset with
        quirks := s.quirks
        params := s.params
        diags := s.diags
        draws := s.draws
        advance := s.advance
        schedule := rest }

/-! ### The whole machine -/

/-- No error condition stops the core (60_exceptions.md R300, R304): from every state the step answers a next state. That
the model goes on where the spec lets a model fault rests on log 1 and log 24 (DEDUCED; D7, D8, D12). -/
def Obligations.StepAlwaysAnswersANextState : Prop := ∀ s : State, ∃ t, step s = .next t

/-- Every step keeps the invariant: parameters as R31 allows them, memory in its canonical form inside the address space (R60,
R64), the stack within the realisation's capacity (R31, R162). -/
def Obligations.StepKeepsTheInvariant : Prop := ∀ s t : State, s.Inv → step s = .next t → t.Inv

/-- The invariant holds right after power-on (R40, R41), with the parameters that log 3 gives State.reset. -/
def Obligations.ResetMeetsTheInvariant : Prop := State.reset.Inv

/-- The diagnostic stream is only appended to, and every step appends events of the shape R301 and R302 give (text of R36, R301,
R302; the spec's own choices D20, D22). -/
def Obligations.StepAppendsWellFormedEvents : Prop :=
  ∀ s t : State, step s = .next t → ∃ events, t.diags = s.diags ++ events ∧ ∀ d ∈ events, d.wf

/-- No instruction writes QUIRKS, KEY, the control state (10_state.md R34, R29, R35), the parameters or the schedule, and only
Cxnn takes a draw (R211). -/
def Obligations.InstructionsLeaveHostStateAlone : Prop :=
  ∀ (i : Instr) (s t : State), exec i s = .next t →
    t.quirks = s.quirks ∧ t.key = s.key ∧ t.ctl = s.ctl ∧ t.params = s.params ∧ t.schedule = s.schedule ∧
    ((∀ x nn, i ≠ .rnd x nn) → t.draws = s.draws)

/-- The call stack (R30): written only by 2nnn, which pushes, and 00EE, which pops, and read by no other instruction. -/
def Obligations.OnlyCallAndRetReachTheStack : Prop :=
  (∀ (i : Instr) (s t : State), exec i s = .next t →
    t.stack = s.stack ∨ (∃ nnn, i = .call nnn ∧ t.stack = (s.pc + 2) :: s.stack) ∨
      (i = .ret ∧ s.stack = t.pc :: t.stack)) ∧
  (∀ (i : Instr) (s t : State) (stack : List Word), (∀ nnn, i ≠ .call nnn) → i ≠ .ret → exec i s = .next t →
    exec i { s with stack := stack } = .next { t with stack := stack })

/-- The framebuffer (R28): a step changes it only by 00E0, Dxyn or Reset. -/
def Obligations.OnlyClsDrwAndResetChangeTheGrid : Prop :=
  ∀ s t : State, step s = .next t → t.fb ≠ s.fb →
    (∃ rest, s.schedule = .reset :: rest) ∨
    ∃ s', executorTurn s s' ∧
      (decode (wordAtPc s) = .known .cls ∨ ∃ x y n, decode (wordAtPc s) = .known (.drw x y n))

/-- Memory (20_memory.md R61, R70): a step changes a byte only by Fx33, Fx55, Reset or the ROM copy. -/
def Obligations.OnlyStoresAndResetChangeMemory : Prop :=
  ∀ (s t : State) (a : Nat), step s = .next t → byteAt a t ≠ byteAt a s →
    (∃ rest, s.schedule = .reset :: rest) ∨ (∃ rom rest, s.schedule = .romDeliver rom :: rest ∧ s.ctl = .loading) ∨
    ∃ s', executorTurn s s' ∧ ∃ x, decode (wordAtPc s) = .known (.ldB x) ∨ decode (wordAtPc s) = .known (.ldMemVx x)

/-- The register frame of every instruction: only the registers of R21's table of writers may change (10_state.md R21, R22). -/
def Obligations.OnlyDestinationRegistersChange : Prop :=
  ∀ (i : Instr) (s t : State) (r : Nibble), exec i s = .next t → ¬ mayWriteReg i r → readV r t = readV r s

/-- I is written only by Annn, Fx1E, Fx29, and by Fx55 and Fx65 with `store_increment_ir` (R24); DT only by Fx15 and ST only
by Fx18 (R33). -/
def Obligations.IndexAndTimersHaveTheirWriters : Prop :=
  ∀ (i : Instr) (s t : State), exec i s = .next t →
    (t.i = s.i ∨ (∃ nnn, i = .ldI nnn) ∨ (∃ x, i = .addI x ∨ i = .ldF x) ∨
      (s.quirks.storeIncrementIr = true ∧ ∃ x, i = .ldMemVx x ∨ i = .ldVxMem x)) ∧
    (t.dt = s.dt ∨ ∃ x, i = .ldDtVx x) ∧ (t.st = s.st ∨ ∃ x, i = .ldStVx x)

/-- R121: from `advance` set, exactly 00EE with a return address, 1nnn, 2nnn that is not refused for a full stack, Bnnn, and
Fx0A with no key pressed clear it (R160, R162, R263; the empty stack is the spec's own choice D12, and a stack longer than
its bound is not refused, log 22, DEDUCED). -/
def Obligations.ExactlyTheJumpsSuppressTheAdvance : Prop :=
  ∀ (i : Instr) (s t : State), s.advance = true → exec i s = .next t →
    (t.advance = false ↔
      (i = .ret ∧ s.stack ≠ []) ∨ (∃ nnn, i = .jp nnn) ∨
      (∃ nnn, i = .call nnn ∧ s.params.stackDepth ≠ some s.stack.length) ∨ (∃ nnn x nn, i = .jpOff nnn x nn) ∨
      (∃ x, i = .ldVxK x ∧ ∀ k : Nibble, keySlot k s = false))

/-- No instruction reads ST or the diagnostic stream (10_state.md R33, R36): with another sound timer and another stream before
it, an instruction does the same, appends the same events, and changes ST only when it is Fx18. -/
def Obligations.SoundTimerAndEventsAreNeverRead : Prop :=
  ∀ (i : Instr) (s t : State) (st : Byte) (diags : List Diag), exec i s = .next t →
    ∃ events u, t.diags = s.diags ++ events ∧ exec i { s with st := st, diags := diags } = .next u ∧
      u = { t with st := u.st, diags := diags ++ events } ∧ (u.st = st ∨ ((∃ x, i = .ldStVx x) ∧ u.st = t.st))

/-- At a self-jump, which the spec takes as the end of a run (text of R343; D40), the pc no longer changes: the step
leaves everything but `advance` and the taken turn as it was (R161). -/
def Obligations.SelfJumpChangesNothing : Prop :=
  ∀ s s' : State, executorTurn s s' → atSelfJump s → step s = .next { s' with advance := false }
end

