-- ==== Sys2Proof/Laws/Codec.lean ====
section
/-! SUPPORT. Laws/Codec.lean: the fields of a word written as its fields side by side (30_encoding.md R91, R93), the two bytes of a
word (R69), and a word under the opcode table's masks (R94). -/

namespace Sys2Proof

section NNN
variable (op : Nibble) (nnn : Addr12)

@[simp] theorem fieldOp_nnn : fieldOp (op ++ nnn) = op := BitVec.extractLsb'_append_eq_left
@[simp] theorem fieldNNN_nnn : fieldNNN (op ++ nnn) = nnn := BitVec.extractLsb'_append_eq_right
@[simp] theorem fieldX_nnn : fieldX (op ++ nnn) = nnn.extractLsb' 8 4 :=
  BitVec.extractLsb'_append_eq_of_add_le (by omega)
@[simp] theorem fieldNN_nnn : fieldNN (op ++ nnn) = nnn.extractLsb' 0 8 :=
  BitVec.extractLsb'_append_eq_of_add_le (by omega)

theorem mask_nnn : (op ++ nnn) &&& (0xF000 : Word) = op ++ 0#12 := by
  show (op ++ nnn) &&& (0xF#4 ++ 0#12) = op ++ 0#12
  rw [BitVec.and_append, BitVec.and_zero, show (0xF#4) = BitVec.allOnes 4 from rfl, BitVec.and_allOnes]
end NNN

section XNN
variable (op x : Nibble) (nn : Byte)

@[simp] theorem fieldOp_xnn : fieldOp (op ++ x ++ nn) = op :=
  (BitVec.extractLsb'_append_eq_of_le (by omega)).trans BitVec.extractLsb'_append_eq_left
@[simp] theorem fieldX_xnn : fieldX (op ++ x ++ nn) = x :=
  (BitVec.extractLsb'_append_eq_of_le (by omega)).trans BitVec.extractLsb'_append_eq_right
@[simp] theorem fieldNN_xnn : fieldNN (op ++ x ++ nn) = nn := BitVec.extractLsb'_append_eq_right

theorem mask_xnn : (op ++ x ++ nn) &&& (0xF000 : Word) = op ++ 0#4 ++ 0#8 := by
  show (op ++ x ++ nn) &&& (0xF#4 ++ 0#4 ++ 0#8) = op ++ 0#4 ++ 0#8
  rw [BitVec.and_append, BitVec.and_append, BitVec.and_zero, BitVec.and_zero,
    show (0xF#4) = BitVec.allOnes 4 from rfl, BitVec.and_allOnes]

theorem mask_xs : (op ++ x ++ nn) &&& (0xF0FF : Word) = op ++ 0#4 ++ nn := by
  show (op ++ x ++ nn) &&& (0xF#4 ++ 0#4 ++ 0xFF#8) = op ++ 0#4 ++ nn
  rw [BitVec.and_append, BitVec.and_append, BitVec.and_zero, show (0xF#4) = BitVec.allOnes 4 from rfl,
    show (0xFF#8) = BitVec.allOnes 8 from rfl, BitVec.and_allOnes, BitVec.and_allOnes]
end XNN

section XYN
variable (op x y n : Nibble)

@[simp] theorem fieldOp_xyn : fieldOp (op ++ x ++ y ++ n) = op :=
  (BitVec.extractLsb'_append_eq_of_le (by omega)).trans
    ((BitVec.extractLsb'_append_eq_of_le (by omega)).trans BitVec.extractLsb'_append_eq_left)
@[simp] theorem fieldX_xyn : fieldX (op ++ x ++ y ++ n) = x :=
  (BitVec.extractLsb'_append_eq_of_le (by omega)).trans
    ((BitVec.extractLsb'_append_eq_of_le (by omega)).trans BitVec.extractLsb'_append_eq_right)
@[simp] theorem fieldY_xyn : fieldY (op ++ x ++ y ++ n) = y :=
  (BitVec.extractLsb'_append_eq_of_le (by omega)).trans BitVec.extractLsb'_append_eq_right
@[simp] theorem fieldN_xyn : fieldN (op ++ x ++ y ++ n) = n := BitVec.extractLsb'_append_eq_right

theorem mask_xyn : (op ++ x ++ y ++ n) &&& (0xF000 : Word) = op ++ 0#4 ++ 0#4 ++ 0#4 := by
  show (op ++ x ++ y ++ n) &&& (0xF#4 ++ 0#4 ++ 0#4 ++ 0#4) = op ++ 0#4 ++ 0#4 ++ 0#4
  rw [BitVec.and_append, BitVec.and_append, BitVec.and_append, BitVec.and_zero, BitVec.and_zero, BitVec.and_zero,
    show (0xF#4) = BitVec.allOnes 4 from rfl, BitVec.and_allOnes]

theorem mask_xys : (op ++ x ++ y ++ n) &&& (0xF00F : Word) = op ++ 0#4 ++ 0#4 ++ n := by
  show (op ++ x ++ y ++ n) &&& (0xF#4 ++ 0#4 ++ 0#4 ++ 0xF#4) = op ++ 0#4 ++ 0#4 ++ n
  rw [BitVec.and_append, BitVec.and_append, BitVec.and_append, BitVec.and_zero, BitVec.and_zero,
    show (0xF#4) = BitVec.allOnes 4 from rfl, BitVec.and_allOnes, BitVec.and_allOnes]
end XYN

/-- A word is its two bytes, the high one first (R69). -/
@[simp] theorem wordOfBytes_bytes (w : Word) : wordOfBytes (highByte w) (lowByte w) = w :=
  (BitVec.extractLsb'_append_extractLsb'_eq_extractLsb' rfl).trans BitVec.extractLsb'_eq_self

/-- A NNN word is its family and its address. -/
theorem word_eq_nnn (w : Word) : fieldOp w ++ fieldNNN w = w :=
  (BitVec.extractLsb'_append_extractLsb'_eq_extractLsb' rfl).trans BitVec.extractLsb'_eq_self

/-- An XNN word is its family, register and byte. -/
theorem word_eq_xnn (w : Word) : fieldOp w ++ fieldX w ++ fieldNN w = w := by
  have h : fieldOp w ++ fieldX w = highByte w := BitVec.extractLsb'_append_extractLsb'_eq_extractLsb' rfl
  rw [h]
  exact wordOfBytes_bytes w

/-- Every word is its four nibbles side by side. -/
theorem word_eq_xyn (w : Word) : fieldOp w ++ fieldX w ++ fieldY w ++ fieldN w = w := by
  have h : fieldOp w ++ fieldX w = highByte w := BitVec.extractLsb'_append_extractLsb'_eq_extractLsb' rfl
  have h' : highByte w ++ fieldY w = w.extractLsb' 4 12 := BitVec.extractLsb'_append_extractLsb'_eq_extractLsb' rfl
  rw [h, h']
  exact (BitVec.extractLsb'_append_extractLsb'_eq_extractLsb' rfl).trans BitVec.extractLsb'_eq_self

end Sys2Proof
end

