-- ==== Sys2Proof/Laws/State.lean ====
section
/-! SUPPORT. Laws/State.lean: one lemma per field per setter, so that no later proof unfolds a record update. -/

namespace Sys2Proof.Machine

section setV
variable (s : State) (a : Vector Byte 16)
@[simp] theorem State.setV_v : (s.setV a).v = a := rfl
@[simp] theorem State.setV_i : (s.setV a).i = s.i := rfl
@[simp] theorem State.setV_pc : (s.setV a).pc = s.pc := rfl
@[simp] theorem State.setV_stack : (s.setV a).stack = s.stack := rfl
@[simp] theorem State.setV_dt : (s.setV a).dt = s.dt := rfl
@[simp] theorem State.setV_st : (s.setV a).st = s.st := rfl
@[simp] theorem State.setV_fb : (s.setV a).fb = s.fb := rfl
@[simp] theorem State.setV_key : (s.setV a).key = s.key := rfl
@[simp] theorem State.setV_mem : (s.setV a).mem = s.mem := rfl
@[simp] theorem State.setV_quirks : (s.setV a).quirks = s.quirks := rfl
@[simp] theorem State.setV_ctl : (s.setV a).ctl = s.ctl := rfl
@[simp] theorem State.setV_advance : (s.setV a).advance = s.advance := rfl
@[simp] theorem State.setV_diags : (s.setV a).diags = s.diags := rfl
@[simp] theorem State.setV_params : (s.setV a).params = s.params := rfl
@[simp] theorem State.setV_draws : (s.setV a).draws = s.draws := rfl
@[simp] theorem State.setV_schedule : (s.setV a).schedule = s.schedule := rfl
end setV

section setI
variable (s : State) (a : Word)
@[simp] theorem State.setI_v : (s.setI a).v = s.v := rfl
@[simp] theorem State.setI_i : (s.setI a).i = a := rfl
@[simp] theorem State.setI_pc : (s.setI a).pc = s.pc := rfl
@[simp] theorem State.setI_stack : (s.setI a).stack = s.stack := rfl
@[simp] theorem State.setI_dt : (s.setI a).dt = s.dt := rfl
@[simp] theorem State.setI_st : (s.setI a).st = s.st := rfl
@[simp] theorem State.setI_fb : (s.setI a).fb = s.fb := rfl
@[simp] theorem State.setI_key : (s.setI a).key = s.key := rfl
@[simp] theorem State.setI_mem : (s.setI a).mem = s.mem := rfl
@[simp] theorem State.setI_quirks : (s.setI a).quirks = s.quirks := rfl
@[simp] theorem State.setI_ctl : (s.setI a).ctl = s.ctl := rfl
@[simp] theorem State.setI_advance : (s.setI a).advance = s.advance := rfl
@[simp] theorem State.setI_diags : (s.setI a).diags = s.diags := rfl
@[simp] theorem State.setI_params : (s.setI a).params = s.params := rfl
@[simp] theorem State.setI_draws : (s.setI a).draws = s.draws := rfl
@[simp] theorem State.setI_schedule : (s.setI a).schedule = s.schedule := rfl
end setI

section setPc
variable (s : State) (a : Word)
@[simp] theorem State.setPc_v : (s.setPc a).v = s.v := rfl
@[simp] theorem State.setPc_i : (s.setPc a).i = s.i := rfl
@[simp] theorem State.setPc_pc : (s.setPc a).pc = a := rfl
@[simp] theorem State.setPc_stack : (s.setPc a).stack = s.stack := rfl
@[simp] theorem State.setPc_dt : (s.setPc a).dt = s.dt := rfl
@[simp] theorem State.setPc_st : (s.setPc a).st = s.st := rfl
@[simp] theorem State.setPc_fb : (s.setPc a).fb = s.fb := rfl
@[simp] theorem State.setPc_key : (s.setPc a).key = s.key := rfl
@[simp] theorem State.setPc_mem : (s.setPc a).mem = s.mem := rfl
@[simp] theorem State.setPc_quirks : (s.setPc a).quirks = s.quirks := rfl
@[simp] theorem State.setPc_ctl : (s.setPc a).ctl = s.ctl := rfl
@[simp] theorem State.setPc_advance : (s.setPc a).advance = s.advance := rfl
@[simp] theorem State.setPc_diags : (s.setPc a).diags = s.diags := rfl
@[simp] theorem State.setPc_params : (s.setPc a).params = s.params := rfl
@[simp] theorem State.setPc_draws : (s.setPc a).draws = s.draws := rfl
@[simp] theorem State.setPc_schedule : (s.setPc a).schedule = s.schedule := rfl
end setPc

section setStack
variable (s : State) (a : List Word)
@[simp] theorem State.setStack_v : (s.setStack a).v = s.v := rfl
@[simp] theorem State.setStack_i : (s.setStack a).i = s.i := rfl
@[simp] theorem State.setStack_pc : (s.setStack a).pc = s.pc := rfl
@[simp] theorem State.setStack_stack : (s.setStack a).stack = a := rfl
@[simp] theorem State.setStack_dt : (s.setStack a).dt = s.dt := rfl
@[simp] theorem State.setStack_st : (s.setStack a).st = s.st := rfl
@[simp] theorem State.setStack_fb : (s.setStack a).fb = s.fb := rfl
@[simp] theorem State.setStack_key : (s.setStack a).key = s.key := rfl
@[simp] theorem State.setStack_mem : (s.setStack a).mem = s.mem := rfl
@[simp] theorem State.setStack_quirks : (s.setStack a).quirks = s.quirks := rfl
@[simp] theorem State.setStack_ctl : (s.setStack a).ctl = s.ctl := rfl
@[simp] theorem State.setStack_advance : (s.setStack a).advance = s.advance := rfl
@[simp] theorem State.setStack_diags : (s.setStack a).diags = s.diags := rfl
@[simp] theorem State.setStack_params : (s.setStack a).params = s.params := rfl
@[simp] theorem State.setStack_draws : (s.setStack a).draws = s.draws := rfl
@[simp] theorem State.setStack_schedule : (s.setStack a).schedule = s.schedule := rfl
end setStack

section setDt
variable (s : State) (a : Byte)
@[simp] theorem State.setDt_v : (s.setDt a).v = s.v := rfl
@[simp] theorem State.setDt_i : (s.setDt a).i = s.i := rfl
@[simp] theorem State.setDt_pc : (s.setDt a).pc = s.pc := rfl
@[simp] theorem State.setDt_stack : (s.setDt a).stack = s.stack := rfl
@[simp] theorem State.setDt_dt : (s.setDt a).dt = a := rfl
@[simp] theorem State.setDt_st : (s.setDt a).st = s.st := rfl
@[simp] theorem State.setDt_fb : (s.setDt a).fb = s.fb := rfl
@[simp] theorem State.setDt_key : (s.setDt a).key = s.key := rfl
@[simp] theorem State.setDt_mem : (s.setDt a).mem = s.mem := rfl
@[simp] theorem State.setDt_quirks : (s.setDt a).quirks = s.quirks := rfl
@[simp] theorem State.setDt_ctl : (s.setDt a).ctl = s.ctl := rfl
@[simp] theorem State.setDt_advance : (s.setDt a).advance = s.advance := rfl
@[simp] theorem State.setDt_diags : (s.setDt a).diags = s.diags := rfl
@[simp] theorem State.setDt_params : (s.setDt a).params = s.params := rfl
@[simp] theorem State.setDt_draws : (s.setDt a).draws = s.draws := rfl
@[simp] theorem State.setDt_schedule : (s.setDt a).schedule = s.schedule := rfl
end setDt

section setSt
variable (s : State) (a : Byte)
@[simp] theorem State.setSt_v : (s.setSt a).v = s.v := rfl
@[simp] theorem State.setSt_i : (s.setSt a).i = s.i := rfl
@[simp] theorem State.setSt_pc : (s.setSt a).pc = s.pc := rfl
@[simp] theorem State.setSt_stack : (s.setSt a).stack = s.stack := rfl
@[simp] theorem State.setSt_dt : (s.setSt a).dt = s.dt := rfl
@[simp] theorem State.setSt_st : (s.setSt a).st = a := rfl
@[simp] theorem State.setSt_fb : (s.setSt a).fb = s.fb := rfl
@[simp] theorem State.setSt_key : (s.setSt a).key = s.key := rfl
@[simp] theorem State.setSt_mem : (s.setSt a).mem = s.mem := rfl
@[simp] theorem State.setSt_quirks : (s.setSt a).quirks = s.quirks := rfl
@[simp] theorem State.setSt_ctl : (s.setSt a).ctl = s.ctl := rfl
@[simp] theorem State.setSt_advance : (s.setSt a).advance = s.advance := rfl
@[simp] theorem State.setSt_diags : (s.setSt a).diags = s.diags := rfl
@[simp] theorem State.setSt_params : (s.setSt a).params = s.params := rfl
@[simp] theorem State.setSt_draws : (s.setSt a).draws = s.draws := rfl
@[simp] theorem State.setSt_schedule : (s.setSt a).schedule = s.schedule := rfl
end setSt

section setFb
variable (s : State) (a : Grid)
@[simp] theorem State.setFb_v : (s.setFb a).v = s.v := rfl
@[simp] theorem State.setFb_i : (s.setFb a).i = s.i := rfl
@[simp] theorem State.setFb_pc : (s.setFb a).pc = s.pc := rfl
@[simp] theorem State.setFb_stack : (s.setFb a).stack = s.stack := rfl
@[simp] theorem State.setFb_dt : (s.setFb a).dt = s.dt := rfl
@[simp] theorem State.setFb_st : (s.setFb a).st = s.st := rfl
@[simp] theorem State.setFb_fb : (s.setFb a).fb = a := rfl
@[simp] theorem State.setFb_key : (s.setFb a).key = s.key := rfl
@[simp] theorem State.setFb_mem : (s.setFb a).mem = s.mem := rfl
@[simp] theorem State.setFb_quirks : (s.setFb a).quirks = s.quirks := rfl
@[simp] theorem State.setFb_ctl : (s.setFb a).ctl = s.ctl := rfl
@[simp] theorem State.setFb_advance : (s.setFb a).advance = s.advance := rfl
@[simp] theorem State.setFb_diags : (s.setFb a).diags = s.diags := rfl
@[simp] theorem State.setFb_params : (s.setFb a).params = s.params := rfl
@[simp] theorem State.setFb_draws : (s.setFb a).draws = s.draws := rfl
@[simp] theorem State.setFb_schedule : (s.setFb a).schedule = s.schedule := rfl
end setFb

section setKey
variable (s : State) (a : Vector Bool 16)
@[simp] theorem State.setKey_v : (s.setKey a).v = s.v := rfl
@[simp] theorem State.setKey_i : (s.setKey a).i = s.i := rfl
@[simp] theorem State.setKey_pc : (s.setKey a).pc = s.pc := rfl
@[simp] theorem State.setKey_stack : (s.setKey a).stack = s.stack := rfl
@[simp] theorem State.setKey_dt : (s.setKey a).dt = s.dt := rfl
@[simp] theorem State.setKey_st : (s.setKey a).st = s.st := rfl
@[simp] theorem State.setKey_fb : (s.setKey a).fb = s.fb := rfl
@[simp] theorem State.setKey_key : (s.setKey a).key = a := rfl
@[simp] theorem State.setKey_mem : (s.setKey a).mem = s.mem := rfl
@[simp] theorem State.setKey_quirks : (s.setKey a).quirks = s.quirks := rfl
@[simp] theorem State.setKey_ctl : (s.setKey a).ctl = s.ctl := rfl
@[simp] theorem State.setKey_advance : (s.setKey a).advance = s.advance := rfl
@[simp] theorem State.setKey_diags : (s.setKey a).diags = s.diags := rfl
@[simp] theorem State.setKey_params : (s.setKey a).params = s.params := rfl
@[simp] theorem State.setKey_draws : (s.setKey a).draws = s.draws := rfl
@[simp] theorem State.setKey_schedule : (s.setKey a).schedule = s.schedule := rfl
end setKey

section setMem
variable (s : State) (a : Memory)
@[simp] theorem State.setMem_v : (s.setMem a).v = s.v := rfl
@[simp] theorem State.setMem_i : (s.setMem a).i = s.i := rfl
@[simp] theorem State.setMem_pc : (s.setMem a).pc = s.pc := rfl
@[simp] theorem State.setMem_stack : (s.setMem a).stack = s.stack := rfl
@[simp] theorem State.setMem_dt : (s.setMem a).dt = s.dt := rfl
@[simp] theorem State.setMem_st : (s.setMem a).st = s.st := rfl
@[simp] theorem State.setMem_fb : (s.setMem a).fb = s.fb := rfl
@[simp] theorem State.setMem_key : (s.setMem a).key = s.key := rfl
@[simp] theorem State.setMem_mem : (s.setMem a).mem = a := rfl
@[simp] theorem State.setMem_quirks : (s.setMem a).quirks = s.quirks := rfl
@[simp] theorem State.setMem_ctl : (s.setMem a).ctl = s.ctl := rfl
@[simp] theorem State.setMem_advance : (s.setMem a).advance = s.advance := rfl
@[simp] theorem State.setMem_diags : (s.setMem a).diags = s.diags := rfl
@[simp] theorem State.setMem_params : (s.setMem a).params = s.params := rfl
@[simp] theorem State.setMem_draws : (s.setMem a).draws = s.draws := rfl
@[simp] theorem State.setMem_schedule : (s.setMem a).schedule = s.schedule := rfl
end setMem

section setQuirks
variable (s : State) (a : Quirks)
@[simp] theorem State.setQuirks_v : (s.setQuirks a).v = s.v := rfl
@[simp] theorem State.setQuirks_i : (s.setQuirks a).i = s.i := rfl
@[simp] theorem State.setQuirks_pc : (s.setQuirks a).pc = s.pc := rfl
@[simp] theorem State.setQuirks_stack : (s.setQuirks a).stack = s.stack := rfl
@[simp] theorem State.setQuirks_dt : (s.setQuirks a).dt = s.dt := rfl
@[simp] theorem State.setQuirks_st : (s.setQuirks a).st = s.st := rfl
@[simp] theorem State.setQuirks_fb : (s.setQuirks a).fb = s.fb := rfl
@[simp] theorem State.setQuirks_key : (s.setQuirks a).key = s.key := rfl
@[simp] theorem State.setQuirks_mem : (s.setQuirks a).mem = s.mem := rfl
@[simp] theorem State.setQuirks_quirks : (s.setQuirks a).quirks = a := rfl
@[simp] theorem State.setQuirks_ctl : (s.setQuirks a).ctl = s.ctl := rfl
@[simp] theorem State.setQuirks_advance : (s.setQuirks a).advance = s.advance := rfl
@[simp] theorem State.setQuirks_diags : (s.setQuirks a).diags = s.diags := rfl
@[simp] theorem State.setQuirks_params : (s.setQuirks a).params = s.params := rfl
@[simp] theorem State.setQuirks_draws : (s.setQuirks a).draws = s.draws := rfl
@[simp] theorem State.setQuirks_schedule : (s.setQuirks a).schedule = s.schedule := rfl
end setQuirks

section setCtl
variable (s : State) (a : Ctl)
@[simp] theorem State.setCtl_v : (s.setCtl a).v = s.v := rfl
@[simp] theorem State.setCtl_i : (s.setCtl a).i = s.i := rfl
@[simp] theorem State.setCtl_pc : (s.setCtl a).pc = s.pc := rfl
@[simp] theorem State.setCtl_stack : (s.setCtl a).stack = s.stack := rfl
@[simp] theorem State.setCtl_dt : (s.setCtl a).dt = s.dt := rfl
@[simp] theorem State.setCtl_st : (s.setCtl a).st = s.st := rfl
@[simp] theorem State.setCtl_fb : (s.setCtl a).fb = s.fb := rfl
@[simp] theorem State.setCtl_key : (s.setCtl a).key = s.key := rfl
@[simp] theorem State.setCtl_mem : (s.setCtl a).mem = s.mem := rfl
@[simp] theorem State.setCtl_quirks : (s.setCtl a).quirks = s.quirks := rfl
@[simp] theorem State.setCtl_ctl : (s.setCtl a).ctl = a := rfl
@[simp] theorem State.setCtl_advance : (s.setCtl a).advance = s.advance := rfl
@[simp] theorem State.setCtl_diags : (s.setCtl a).diags = s.diags := rfl
@[simp] theorem State.setCtl_params : (s.setCtl a).params = s.params := rfl
@[simp] theorem State.setCtl_draws : (s.setCtl a).draws = s.draws := rfl
@[simp] theorem State.setCtl_schedule : (s.setCtl a).schedule = s.schedule := rfl
end setCtl

section setAdvance
variable (s : State) (a : Bool)
@[simp] theorem State.setAdvance_v : (s.setAdvance a).v = s.v := rfl
@[simp] theorem State.setAdvance_i : (s.setAdvance a).i = s.i := rfl
@[simp] theorem State.setAdvance_pc : (s.setAdvance a).pc = s.pc := rfl
@[simp] theorem State.setAdvance_stack : (s.setAdvance a).stack = s.stack := rfl
@[simp] theorem State.setAdvance_dt : (s.setAdvance a).dt = s.dt := rfl
@[simp] theorem State.setAdvance_st : (s.setAdvance a).st = s.st := rfl
@[simp] theorem State.setAdvance_fb : (s.setAdvance a).fb = s.fb := rfl
@[simp] theorem State.setAdvance_key : (s.setAdvance a).key = s.key := rfl
@[simp] theorem State.setAdvance_mem : (s.setAdvance a).mem = s.mem := rfl
@[simp] theorem State.setAdvance_quirks : (s.setAdvance a).quirks = s.quirks := rfl
@[simp] theorem State.setAdvance_ctl : (s.setAdvance a).ctl = s.ctl := rfl
@[simp] theorem State.setAdvance_advance : (s.setAdvance a).advance = a := rfl
@[simp] theorem State.setAdvance_diags : (s.setAdvance a).diags = s.diags := rfl
@[simp] theorem State.setAdvance_params : (s.setAdvance a).params = s.params := rfl
@[simp] theorem State.setAdvance_draws : (s.setAdvance a).draws = s.draws := rfl
@[simp] theorem State.setAdvance_schedule : (s.setAdvance a).schedule = s.schedule := rfl
end setAdvance

section setDiags
variable (s : State) (a : List Diag)
@[simp] theorem State.setDiags_v : (s.setDiags a).v = s.v := rfl
@[simp] theorem State.setDiags_i : (s.setDiags a).i = s.i := rfl
@[simp] theorem State.setDiags_pc : (s.setDiags a).pc = s.pc := rfl
@[simp] theorem State.setDiags_stack : (s.setDiags a).stack = s.stack := rfl
@[simp] theorem State.setDiags_dt : (s.setDiags a).dt = s.dt := rfl
@[simp] theorem State.setDiags_st : (s.setDiags a).st = s.st := rfl
@[simp] theorem State.setDiags_fb : (s.setDiags a).fb = s.fb := rfl
@[simp] theorem State.setDiags_key : (s.setDiags a).key = s.key := rfl
@[simp] theorem State.setDiags_mem : (s.setDiags a).mem = s.mem := rfl
@[simp] theorem State.setDiags_quirks : (s.setDiags a).quirks = s.quirks := rfl
@[simp] theorem State.setDiags_ctl : (s.setDiags a).ctl = s.ctl := rfl
@[simp] theorem State.setDiags_advance : (s.setDiags a).advance = s.advance := rfl
@[simp] theorem State.setDiags_diags : (s.setDiags a).diags = a := rfl
@[simp] theorem State.setDiags_params : (s.setDiags a).params = s.params := rfl
@[simp] theorem State.setDiags_draws : (s.setDiags a).draws = s.draws := rfl
@[simp] theorem State.setDiags_schedule : (s.setDiags a).schedule = s.schedule := rfl
end setDiags

section setParams
variable (s : State) (a : Params)
@[simp] theorem State.setParams_v : (s.setParams a).v = s.v := rfl
@[simp] theorem State.setParams_i : (s.setParams a).i = s.i := rfl
@[simp] theorem State.setParams_pc : (s.setParams a).pc = s.pc := rfl
@[simp] theorem State.setParams_stack : (s.setParams a).stack = s.stack := rfl
@[simp] theorem State.setParams_dt : (s.setParams a).dt = s.dt := rfl
@[simp] theorem State.setParams_st : (s.setParams a).st = s.st := rfl
@[simp] theorem State.setParams_fb : (s.setParams a).fb = s.fb := rfl
@[simp] theorem State.setParams_key : (s.setParams a).key = s.key := rfl
@[simp] theorem State.setParams_mem : (s.setParams a).mem = s.mem := rfl
@[simp] theorem State.setParams_quirks : (s.setParams a).quirks = s.quirks := rfl
@[simp] theorem State.setParams_ctl : (s.setParams a).ctl = s.ctl := rfl
@[simp] theorem State.setParams_advance : (s.setParams a).advance = s.advance := rfl
@[simp] theorem State.setParams_diags : (s.setParams a).diags = s.diags := rfl
@[simp] theorem State.setParams_params : (s.setParams a).params = a := rfl
@[simp] theorem State.setParams_draws : (s.setParams a).draws = s.draws := rfl
@[simp] theorem State.setParams_schedule : (s.setParams a).schedule = s.schedule := rfl
end setParams

section setDraws
variable (s : State) (a : Nat)
@[simp] theorem State.setDraws_v : (s.setDraws a).v = s.v := rfl
@[simp] theorem State.setDraws_i : (s.setDraws a).i = s.i := rfl
@[simp] theorem State.setDraws_pc : (s.setDraws a).pc = s.pc := rfl
@[simp] theorem State.setDraws_stack : (s.setDraws a).stack = s.stack := rfl
@[simp] theorem State.setDraws_dt : (s.setDraws a).dt = s.dt := rfl
@[simp] theorem State.setDraws_st : (s.setDraws a).st = s.st := rfl
@[simp] theorem State.setDraws_fb : (s.setDraws a).fb = s.fb := rfl
@[simp] theorem State.setDraws_key : (s.setDraws a).key = s.key := rfl
@[simp] theorem State.setDraws_mem : (s.setDraws a).mem = s.mem := rfl
@[simp] theorem State.setDraws_quirks : (s.setDraws a).quirks = s.quirks := rfl
@[simp] theorem State.setDraws_ctl : (s.setDraws a).ctl = s.ctl := rfl
@[simp] theorem State.setDraws_advance : (s.setDraws a).advance = s.advance := rfl
@[simp] theorem State.setDraws_diags : (s.setDraws a).diags = s.diags := rfl
@[simp] theorem State.setDraws_params : (s.setDraws a).params = s.params := rfl
@[simp] theorem State.setDraws_draws : (s.setDraws a).draws = a := rfl
@[simp] theorem State.setDraws_schedule : (s.setDraws a).schedule = s.schedule := rfl
end setDraws

section setSchedule
variable (s : State) (a : List Turn)
@[simp] theorem State.setSchedule_v : (s.setSchedule a).v = s.v := rfl
@[simp] theorem State.setSchedule_i : (s.setSchedule a).i = s.i := rfl
@[simp] theorem State.setSchedule_pc : (s.setSchedule a).pc = s.pc := rfl
@[simp] theorem State.setSchedule_stack : (s.setSchedule a).stack = s.stack := rfl
@[simp] theorem State.setSchedule_dt : (s.setSchedule a).dt = s.dt := rfl
@[simp] theorem State.setSchedule_st : (s.setSchedule a).st = s.st := rfl
@[simp] theorem State.setSchedule_fb : (s.setSchedule a).fb = s.fb := rfl
@[simp] theorem State.setSchedule_key : (s.setSchedule a).key = s.key := rfl
@[simp] theorem State.setSchedule_mem : (s.setSchedule a).mem = s.mem := rfl
@[simp] theorem State.setSchedule_quirks : (s.setSchedule a).quirks = s.quirks := rfl
@[simp] theorem State.setSchedule_ctl : (s.setSchedule a).ctl = s.ctl := rfl
@[simp] theorem State.setSchedule_advance : (s.setSchedule a).advance = s.advance := rfl
@[simp] theorem State.setSchedule_diags : (s.setSchedule a).diags = s.diags := rfl
@[simp] theorem State.setSchedule_params : (s.setSchedule a).params = s.params := rfl
@[simp] theorem State.setSchedule_draws : (s.setSchedule a).draws = s.draws := rfl
@[simp] theorem State.setSchedule_schedule : (s.setSchedule a).schedule = a := rfl
end setSchedule

end Sys2Proof.Machine
end

