-- ==== Sys2Proof/Laws/Ops.lean ====
section
/-! SUPPORT. Laws/Ops.lean: for each named operation, what every field holds after it. -/

namespace Sys2Proof.Machine

section raise
variable (d : Diag) (s : State)
@[simp] theorem raise_v : (raise d s).v = s.v := rfl
@[simp] theorem raise_i : (raise d s).i = s.i := rfl
@[simp] theorem raise_pc : (raise d s).pc = s.pc := rfl
@[simp] theorem raise_stack : (raise d s).stack = s.stack := rfl
@[simp] theorem raise_dt : (raise d s).dt = s.dt := rfl
@[simp] theorem raise_st : (raise d s).st = s.st := rfl
@[simp] theorem raise_fb : (raise d s).fb = s.fb := rfl
@[simp] theorem raise_key : (raise d s).key = s.key := rfl
@[simp] theorem raise_mem : (raise d s).mem = s.mem := rfl
@[simp] theorem raise_quirks : (raise d s).quirks = s.quirks := rfl
@[simp] theorem raise_ctl : (raise d s).ctl = s.ctl := rfl
@[simp] theorem raise_advance : (raise d s).advance = s.advance := rfl
@[simp] theorem raise_diags : (raise d s).diags = s.diags ++ [d] := rfl
@[simp] theorem raise_params : (raise d s).params = s.params := rfl
@[simp] theorem raise_draws : (raise d s).draws = s.draws := rfl
@[simp] theorem raise_schedule : (raise d s).schedule = s.schedule := rfl
end raise

section raiseHere
variable (code : DiagCode) (w : Option Word) (a : Option Nat) (s : State)
@[simp] theorem raiseHere_v : (raiseHere code w a s).v = s.v := rfl
@[simp] theorem raiseHere_i : (raiseHere code w a s).i = s.i := rfl
@[simp] theorem raiseHere_pc : (raiseHere code w a s).pc = s.pc := rfl
@[simp] theorem raiseHere_stack : (raiseHere code w a s).stack = s.stack := rfl
@[simp] theorem raiseHere_dt : (raiseHere code w a s).dt = s.dt := rfl
@[simp] theorem raiseHere_st : (raiseHere code w a s).st = s.st := rfl
@[simp] theorem raiseHere_fb : (raiseHere code w a s).fb = s.fb := rfl
@[simp] theorem raiseHere_key : (raiseHere code w a s).key = s.key := rfl
@[simp] theorem raiseHere_mem : (raiseHere code w a s).mem = s.mem := rfl
@[simp] theorem raiseHere_quirks : (raiseHere code w a s).quirks = s.quirks := rfl
@[simp] theorem raiseHere_ctl : (raiseHere code w a s).ctl = s.ctl := rfl
@[simp] theorem raiseHere_advance : (raiseHere code w a s).advance = s.advance := rfl
@[simp] theorem raiseHere_diags : (raiseHere code w a s).diags = s.diags ++ [{ code := code, pc := some s.pc, word := w, addr := a }] := rfl
@[simp] theorem raiseHere_params : (raiseHere code w a s).params = s.params := rfl
@[simp] theorem raiseHere_draws : (raiseHere code w a s).draws = s.draws := rfl
@[simp] theorem raiseHere_schedule : (raiseHere code w a s).schedule = s.schedule := rfl
end raiseHere

section writeV
variable (x : Nibble) (b : Byte) (s : State)
@[simp] theorem writeV_i : (writeV x b s).i = s.i := rfl
@[simp] theorem writeV_pc : (writeV x b s).pc = s.pc := rfl
@[simp] theorem writeV_stack : (writeV x b s).stack = s.stack := rfl
@[simp] theorem writeV_dt : (writeV x b s).dt = s.dt := rfl
@[simp] theorem writeV_st : (writeV x b s).st = s.st := rfl
@[simp] theorem writeV_fb : (writeV x b s).fb = s.fb := rfl
@[simp] theorem writeV_key : (writeV x b s).key = s.key := rfl
@[simp] theorem writeV_mem : (writeV x b s).mem = s.mem := rfl
@[simp] theorem writeV_quirks : (writeV x b s).quirks = s.quirks := rfl
@[simp] theorem writeV_ctl : (writeV x b s).ctl = s.ctl := rfl
@[simp] theorem writeV_advance : (writeV x b s).advance = s.advance := rfl
@[simp] theorem writeV_diags : (writeV x b s).diags = s.diags := rfl
@[simp] theorem writeV_params : (writeV x b s).params = s.params := rfl
@[simp] theorem writeV_draws : (writeV x b s).draws = s.draws := rfl
@[simp] theorem writeV_schedule : (writeV x b s).schedule = s.schedule := rfl
end writeV

section writeFlag
variable (b : Byte) (s : State)
@[simp] theorem writeFlag_i : (writeFlag b s).i = s.i := rfl
@[simp] theorem writeFlag_pc : (writeFlag b s).pc = s.pc := rfl
@[simp] theorem writeFlag_stack : (writeFlag b s).stack = s.stack := rfl
@[simp] theorem writeFlag_dt : (writeFlag b s).dt = s.dt := rfl
@[simp] theorem writeFlag_st : (writeFlag b s).st = s.st := rfl
@[simp] theorem writeFlag_fb : (writeFlag b s).fb = s.fb := rfl
@[simp] theorem writeFlag_key : (writeFlag b s).key = s.key := rfl
@[simp] theorem writeFlag_mem : (writeFlag b s).mem = s.mem := rfl
@[simp] theorem writeFlag_quirks : (writeFlag b s).quirks = s.quirks := rfl
@[simp] theorem writeFlag_ctl : (writeFlag b s).ctl = s.ctl := rfl
@[simp] theorem writeFlag_advance : (writeFlag b s).advance = s.advance := rfl
@[simp] theorem writeFlag_diags : (writeFlag b s).diags = s.diags := rfl
@[simp] theorem writeFlag_params : (writeFlag b s).params = s.params := rfl
@[simp] theorem writeFlag_draws : (writeFlag b s).draws = s.draws := rfl
@[simp] theorem writeFlag_schedule : (writeFlag b s).schedule = s.schedule := rfl
end writeFlag

section jump
variable (w : Word) (s : State)
@[simp] theorem jump_v : (jump w s).v = s.v := rfl
@[simp] theorem jump_i : (jump w s).i = s.i := rfl
@[simp] theorem jump_pc : (jump w s).pc = w := rfl
@[simp] theorem jump_stack : (jump w s).stack = s.stack := rfl
@[simp] theorem jump_dt : (jump w s).dt = s.dt := rfl
@[simp] theorem jump_st : (jump w s).st = s.st := rfl
@[simp] theorem jump_fb : (jump w s).fb = s.fb := rfl
@[simp] theorem jump_key : (jump w s).key = s.key := rfl
@[simp] theorem jump_mem : (jump w s).mem = s.mem := rfl
@[simp] theorem jump_quirks : (jump w s).quirks = s.quirks := rfl
@[simp] theorem jump_ctl : (jump w s).ctl = s.ctl := rfl
@[simp] theorem jump_advance : (jump w s).advance = false := rfl
@[simp] theorem jump_diags : (jump w s).diags = s.diags := rfl
@[simp] theorem jump_params : (jump w s).params = s.params := rfl
@[simp] theorem jump_draws : (jump w s).draws = s.draws := rfl
@[simp] theorem jump_schedule : (jump w s).schedule = s.schedule := rfl
end jump

section bumpPc
variable (s : State)
@[simp] theorem bumpPc_v : (bumpPc s).v = s.v := rfl
@[simp] theorem bumpPc_i : (bumpPc s).i = s.i := rfl
@[simp] theorem bumpPc_pc : (bumpPc s).pc = s.pc + 2 := rfl
@[simp] theorem bumpPc_stack : (bumpPc s).stack = s.stack := rfl
@[simp] theorem bumpPc_dt : (bumpPc s).dt = s.dt := rfl
@[simp] theorem bumpPc_st : (bumpPc s).st = s.st := rfl
@[simp] theorem bumpPc_fb : (bumpPc s).fb = s.fb := rfl
@[simp] theorem bumpPc_key : (bumpPc s).key = s.key := rfl
@[simp] theorem bumpPc_mem : (bumpPc s).mem = s.mem := rfl
@[simp] theorem bumpPc_quirks : (bumpPc s).quirks = s.quirks := rfl
@[simp] theorem bumpPc_ctl : (bumpPc s).ctl = s.ctl := rfl
@[simp] theorem bumpPc_advance : (bumpPc s).advance = s.advance := rfl
@[simp] theorem bumpPc_diags : (bumpPc s).diags = s.diags := rfl
@[simp] theorem bumpPc_params : (bumpPc s).params = s.params := rfl
@[simp] theorem bumpPc_draws : (bumpPc s).draws = s.draws := rfl
@[simp] theorem bumpPc_schedule : (bumpPc s).schedule = s.schedule := rfl
end bumpPc

section skipIf
variable (c : Bool) (s : State)
@[simp] theorem skipIf_v : (skipIf c s).v = s.v := by unfold skipIf; split <;> rfl
@[simp] theorem skipIf_i : (skipIf c s).i = s.i := by unfold skipIf; split <;> rfl
@[simp] theorem skipIf_pc : (skipIf c s).pc = if c then s.pc + 2 else s.pc := by unfold skipIf; split <;> rfl
@[simp] theorem skipIf_stack : (skipIf c s).stack = s.stack := by unfold skipIf; split <;> rfl
@[simp] theorem skipIf_dt : (skipIf c s).dt = s.dt := by unfold skipIf; split <;> rfl
@[simp] theorem skipIf_st : (skipIf c s).st = s.st := by unfold skipIf; split <;> rfl
@[simp] theorem skipIf_fb : (skipIf c s).fb = s.fb := by unfold skipIf; split <;> rfl
@[simp] theorem skipIf_key : (skipIf c s).key = s.key := by unfold skipIf; split <;> rfl
@[simp] theorem skipIf_mem : (skipIf c s).mem = s.mem := by unfold skipIf; split <;> rfl
@[simp] theorem skipIf_quirks : (skipIf c s).quirks = s.quirks := by unfold skipIf; split <;> rfl
@[simp] theorem skipIf_ctl : (skipIf c s).ctl = s.ctl := by unfold skipIf; split <;> rfl
@[simp] theorem skipIf_advance : (skipIf c s).advance = s.advance := by unfold skipIf; split <;> rfl
@[simp] theorem skipIf_diags : (skipIf c s).diags = s.diags := by unfold skipIf; split <;> rfl
@[simp] theorem skipIf_params : (skipIf c s).params = s.params := by unfold skipIf; split <;> rfl
@[simp] theorem skipIf_draws : (skipIf c s).draws = s.draws := by unfold skipIf; split <;> rfl
@[simp] theorem skipIf_schedule : (skipIf c s).schedule = s.schedule := by unfold skipIf; split <;> rfl
end skipIf

section hold
variable (s : State)
@[simp] theorem hold_v : (hold s).v = s.v := rfl
@[simp] theorem hold_i : (hold s).i = s.i := rfl
@[simp] theorem hold_pc : (hold s).pc = s.pc := rfl
@[simp] theorem hold_stack : (hold s).stack = s.stack := rfl
@[simp] theorem hold_dt : (hold s).dt = s.dt := rfl
@[simp] theorem hold_st : (hold s).st = s.st := rfl
@[simp] theorem hold_fb : (hold s).fb = s.fb := rfl
@[simp] theorem hold_key : (hold s).key = s.key := rfl
@[simp] theorem hold_mem : (hold s).mem = s.mem := rfl
@[simp] theorem hold_quirks : (hold s).quirks = s.quirks := rfl
@[simp] theorem hold_ctl : (hold s).ctl = s.ctl := rfl
@[simp] theorem hold_advance : (hold s).advance = false := rfl
@[simp] theorem hold_diags : (hold s).diags = s.diags := rfl
@[simp] theorem hold_params : (hold s).params = s.params := rfl
@[simp] theorem hold_draws : (hold s).draws = s.draws := rfl
@[simp] theorem hold_schedule : (hold s).schedule = s.schedule := rfl
end hold

section pokeByte
variable (a : Nat) (b : Byte) (s : State)
@[simp] theorem pokeByte_v : (pokeByte a b s).v = s.v := rfl
@[simp] theorem pokeByte_i : (pokeByte a b s).i = s.i := rfl
@[simp] theorem pokeByte_pc : (pokeByte a b s).pc = s.pc := rfl
@[simp] theorem pokeByte_stack : (pokeByte a b s).stack = s.stack := rfl
@[simp] theorem pokeByte_dt : (pokeByte a b s).dt = s.dt := rfl
@[simp] theorem pokeByte_st : (pokeByte a b s).st = s.st := rfl
@[simp] theorem pokeByte_fb : (pokeByte a b s).fb = s.fb := rfl
@[simp] theorem pokeByte_key : (pokeByte a b s).key = s.key := rfl
@[simp] theorem pokeByte_mem : (pokeByte a b s).mem = Memory.write s.params.font s.mem a b := rfl
@[simp] theorem pokeByte_quirks : (pokeByte a b s).quirks = s.quirks := rfl
@[simp] theorem pokeByte_ctl : (pokeByte a b s).ctl = s.ctl := rfl
@[simp] theorem pokeByte_advance : (pokeByte a b s).advance = s.advance := rfl
@[simp] theorem pokeByte_diags : (pokeByte a b s).diags = s.diags := rfl
@[simp] theorem pokeByte_params : (pokeByte a b s).params = s.params := rfl
@[simp] theorem pokeByte_draws : (pokeByte a b s).draws = s.draws := rfl
@[simp] theorem pokeByte_schedule : (pokeByte a b s).schedule = s.schedule := rfl
end pokeByte

section memWrite
variable (a : Nat) (b : Byte) (s : State)
@[simp] theorem memWrite_v : (memWrite a b s).v = s.v := by unfold memWrite; split <;> rfl
@[simp] theorem memWrite_i : (memWrite a b s).i = s.i := by unfold memWrite; split <;> rfl
@[simp] theorem memWrite_pc : (memWrite a b s).pc = s.pc := by unfold memWrite; split <;> rfl
@[simp] theorem memWrite_stack : (memWrite a b s).stack = s.stack := by unfold memWrite; split <;> rfl
@[simp] theorem memWrite_dt : (memWrite a b s).dt = s.dt := by unfold memWrite; split <;> rfl
@[simp] theorem memWrite_st : (memWrite a b s).st = s.st := by unfold memWrite; split <;> rfl
@[simp] theorem memWrite_fb : (memWrite a b s).fb = s.fb := by unfold memWrite; split <;> rfl
@[simp] theorem memWrite_key : (memWrite a b s).key = s.key := by unfold memWrite; split <;> rfl
@[simp] theorem memWrite_quirks : (memWrite a b s).quirks = s.quirks := by unfold memWrite; split <;> rfl
@[simp] theorem memWrite_ctl : (memWrite a b s).ctl = s.ctl := by unfold memWrite; split <;> rfl
@[simp] theorem memWrite_advance : (memWrite a b s).advance = s.advance := by unfold memWrite; split <;> rfl
@[simp] theorem memWrite_params : (memWrite a b s).params = s.params := by unfold memWrite; split <;> rfl
@[simp] theorem memWrite_draws : (memWrite a b s).draws = s.draws := by unfold memWrite; split <;> rfl
@[simp] theorem memWrite_schedule : (memWrite a b s).schedule = s.schedule := by unfold memWrite; split <;> rfl
end memWrite

section push
variable (w : Word) (s : State)
@[simp] theorem push_v : (push w s).v = s.v := rfl
@[simp] theorem push_i : (push w s).i = s.i := rfl
@[simp] theorem push_pc : (push w s).pc = s.pc := rfl
@[simp] theorem push_stack : (push w s).stack = w :: s.stack := rfl
@[simp] theorem push_dt : (push w s).dt = s.dt := rfl
@[simp] theorem push_st : (push w s).st = s.st := rfl
@[simp] theorem push_fb : (push w s).fb = s.fb := rfl
@[simp] theorem push_key : (push w s).key = s.key := rfl
@[simp] theorem push_mem : (push w s).mem = s.mem := rfl
@[simp] theorem push_quirks : (push w s).quirks = s.quirks := rfl
@[simp] theorem push_ctl : (push w s).ctl = s.ctl := rfl
@[simp] theorem push_advance : (push w s).advance = s.advance := rfl
@[simp] theorem push_diags : (push w s).diags = s.diags := rfl
@[simp] theorem push_params : (push w s).params = s.params := rfl
@[simp] theorem push_draws : (push w s).draws = s.draws := rfl
@[simp] theorem push_schedule : (push w s).schedule = s.schedule := rfl
end push

section setCell
variable (X : Fin 64) (Y : Fin 32) (b : Bool) (s : State)
@[simp] theorem setCell_v : (setCell X Y b s).v = s.v := rfl
@[simp] theorem setCell_i : (setCell X Y b s).i = s.i := rfl
@[simp] theorem setCell_pc : (setCell X Y b s).pc = s.pc := rfl
@[simp] theorem setCell_stack : (setCell X Y b s).stack = s.stack := rfl
@[simp] theorem setCell_dt : (setCell X Y b s).dt = s.dt := rfl
@[simp] theorem setCell_st : (setCell X Y b s).st = s.st := rfl
@[simp] theorem setCell_key : (setCell X Y b s).key = s.key := rfl
@[simp] theorem setCell_mem : (setCell X Y b s).mem = s.mem := rfl
@[simp] theorem setCell_quirks : (setCell X Y b s).quirks = s.quirks := rfl
@[simp] theorem setCell_ctl : (setCell X Y b s).ctl = s.ctl := rfl
@[simp] theorem setCell_advance : (setCell X Y b s).advance = s.advance := rfl
@[simp] theorem setCell_diags : (setCell X Y b s).diags = s.diags := rfl
@[simp] theorem setCell_params : (setCell X Y b s).params = s.params := rfl
@[simp] theorem setCell_draws : (setCell X Y b s).draws = s.draws := rfl
@[simp] theorem setCell_schedule : (setCell X Y b s).schedule = s.schedule := rfl
end setCell

section clearGrid
variable (s : State)
@[simp] theorem clearGrid_v : (clearGrid s).v = s.v := rfl
@[simp] theorem clearGrid_i : (clearGrid s).i = s.i := rfl
@[simp] theorem clearGrid_pc : (clearGrid s).pc = s.pc := rfl
@[simp] theorem clearGrid_stack : (clearGrid s).stack = s.stack := rfl
@[simp] theorem clearGrid_dt : (clearGrid s).dt = s.dt := rfl
@[simp] theorem clearGrid_st : (clearGrid s).st = s.st := rfl
@[simp] theorem clearGrid_key : (clearGrid s).key = s.key := rfl
@[simp] theorem clearGrid_mem : (clearGrid s).mem = s.mem := rfl
@[simp] theorem clearGrid_quirks : (clearGrid s).quirks = s.quirks := rfl
@[simp] theorem clearGrid_ctl : (clearGrid s).ctl = s.ctl := rfl
@[simp] theorem clearGrid_advance : (clearGrid s).advance = s.advance := rfl
@[simp] theorem clearGrid_diags : (clearGrid s).diags = s.diags := rfl
@[simp] theorem clearGrid_params : (clearGrid s).params = s.params := rfl
@[simp] theorem clearGrid_draws : (clearGrid s).draws = s.draws := rfl
@[simp] theorem clearGrid_schedule : (clearGrid s).schedule = s.schedule := rfl
end clearGrid

section setKeySlot
variable (k : Nibble) (b : Bool) (s : State)
@[simp] theorem setKeySlot_v : (setKeySlot k b s).v = s.v := rfl
@[simp] theorem setKeySlot_i : (setKeySlot k b s).i = s.i := rfl
@[simp] theorem setKeySlot_pc : (setKeySlot k b s).pc = s.pc := rfl
@[simp] theorem setKeySlot_stack : (setKeySlot k b s).stack = s.stack := rfl
@[simp] theorem setKeySlot_dt : (setKeySlot k b s).dt = s.dt := rfl
@[simp] theorem setKeySlot_st : (setKeySlot k b s).st = s.st := rfl
@[simp] theorem setKeySlot_fb : (setKeySlot k b s).fb = s.fb := rfl
@[simp] theorem setKeySlot_mem : (setKeySlot k b s).mem = s.mem := rfl
@[simp] theorem setKeySlot_quirks : (setKeySlot k b s).quirks = s.quirks := rfl
@[simp] theorem setKeySlot_ctl : (setKeySlot k b s).ctl = s.ctl := rfl
@[simp] theorem setKeySlot_advance : (setKeySlot k b s).advance = s.advance := rfl
@[simp] theorem setKeySlot_diags : (setKeySlot k b s).diags = s.diags := rfl
@[simp] theorem setKeySlot_params : (setKeySlot k b s).params = s.params := rfl
@[simp] theorem setKeySlot_draws : (setKeySlot k b s).draws = s.draws := rfl
@[simp] theorem setKeySlot_schedule : (setKeySlot k b s).schedule = s.schedule := rfl
end setKeySlot

section timerTick
variable (s : State)
@[simp] theorem timerTick_v : (timerTick s).v = s.v := rfl
@[simp] theorem timerTick_i : (timerTick s).i = s.i := rfl
@[simp] theorem timerTick_pc : (timerTick s).pc = s.pc := rfl
@[simp] theorem timerTick_stack : (timerTick s).stack = s.stack := rfl
@[simp] theorem timerTick_dt : (timerTick s).dt = countDown s.dt := rfl
@[simp] theorem timerTick_st : (timerTick s).st = countDown s.st := rfl
@[simp] theorem timerTick_fb : (timerTick s).fb = s.fb := rfl
@[simp] theorem timerTick_key : (timerTick s).key = s.key := rfl
@[simp] theorem timerTick_mem : (timerTick s).mem = s.mem := rfl
@[simp] theorem timerTick_quirks : (timerTick s).quirks = s.quirks := rfl
@[simp] theorem timerTick_ctl : (timerTick s).ctl = s.ctl := rfl
@[simp] theorem timerTick_advance : (timerTick s).advance = s.advance := rfl
@[simp] theorem timerTick_diags : (timerTick s).diags = s.diags := rfl
@[simp] theorem timerTick_params : (timerTick s).params = s.params := rfl
@[simp] theorem timerTick_draws : (timerTick s).draws = s.draws := rfl
@[simp] theorem timerTick_schedule : (timerTick s).schedule = s.schedule := rfl
end timerTick

section romByte
variable (a : Nat) (b : Byte) (s : State)
@[simp] theorem romByte_v : (romByte a b s).v = s.v := by unfold romByte; split <;> rfl
@[simp] theorem romByte_i : (romByte a b s).i = s.i := by unfold romByte; split <;> rfl
@[simp] theorem romByte_pc : (romByte a b s).pc = s.pc := by unfold romByte; split <;> rfl
@[simp] theorem romByte_stack : (romByte a b s).stack = s.stack := by unfold romByte; split <;> rfl
@[simp] theorem romByte_dt : (romByte a b s).dt = s.dt := by unfold romByte; split <;> rfl
@[simp] theorem romByte_st : (romByte a b s).st = s.st := by unfold romByte; split <;> rfl
@[simp] theorem romByte_fb : (romByte a b s).fb = s.fb := by unfold romByte; split <;> rfl
@[simp] theorem romByte_key : (romByte a b s).key = s.key := by unfold romByte; split <;> rfl
@[simp] theorem romByte_quirks : (romByte a b s).quirks = s.quirks := by unfold romByte; split <;> rfl
@[simp] theorem romByte_ctl : (romByte a b s).ctl = s.ctl := by unfold romByte; split <;> rfl
@[simp] theorem romByte_advance : (romByte a b s).advance = s.advance := by unfold romByte; split <;> rfl
@[simp] theorem romByte_params : (romByte a b s).params = s.params := by unfold romByte; split <;> rfl
@[simp] theorem romByte_draws : (romByte a b s).draws = s.draws := by unfold romByte; split <;> rfl
@[simp] theorem romByte_schedule : (romByte a b s).schedule = s.schedule := by unfold romByte; split <;> rfl
end romByte

section shiftSource
variable (x y : Nibble) (s : State)
@[simp] theorem shiftSource_i : (shiftSource x y s).i = s.i := by unfold shiftSource; split <;> rfl
@[simp] theorem shiftSource_pc : (shiftSource x y s).pc = s.pc := by unfold shiftSource; split <;> rfl
@[simp] theorem shiftSource_stack : (shiftSource x y s).stack = s.stack := by unfold shiftSource; split <;> rfl
@[simp] theorem shiftSource_dt : (shiftSource x y s).dt = s.dt := by unfold shiftSource; split <;> rfl
@[simp] theorem shiftSource_st : (shiftSource x y s).st = s.st := by unfold shiftSource; split <;> rfl
@[simp] theorem shiftSource_fb : (shiftSource x y s).fb = s.fb := by unfold shiftSource; split <;> rfl
@[simp] theorem shiftSource_key : (shiftSource x y s).key = s.key := by unfold shiftSource; split <;> rfl
@[simp] theorem shiftSource_mem : (shiftSource x y s).mem = s.mem := by unfold shiftSource; split <;> rfl
@[simp] theorem shiftSource_quirks : (shiftSource x y s).quirks = s.quirks := by unfold shiftSource; split <;> rfl
@[simp] theorem shiftSource_ctl : (shiftSource x y s).ctl = s.ctl := by unfold shiftSource; split <;> rfl
@[simp] theorem shiftSource_advance : (shiftSource x y s).advance = s.advance := by unfold shiftSource; split <;> rfl
@[simp] theorem shiftSource_diags : (shiftSource x y s).diags = s.diags := by unfold shiftSource; split <;> rfl
@[simp] theorem shiftSource_params : (shiftSource x y s).params = s.params := by unfold shiftSource; split <;> rfl
@[simp] theorem shiftSource_draws : (shiftSource x y s).draws = s.draws := by unfold shiftSource; split <;> rfl
@[simp] theorem shiftSource_schedule : (shiftSource x y s).schedule = s.schedule := by unfold shiftSource; split <;> rfl
end shiftSource

section postIncrement
variable (s : State)
@[simp] theorem postIncrement_v : (postIncrement s).v = s.v := by unfold postIncrement; split <;> rfl
@[simp] theorem postIncrement_i : (postIncrement s).i = if s.quirks.storeIncrementIr then s.i + 1 else s.i := by unfold postIncrement; split <;> rfl
@[simp] theorem postIncrement_pc : (postIncrement s).pc = s.pc := by unfold postIncrement; split <;> rfl
@[simp] theorem postIncrement_stack : (postIncrement s).stack = s.stack := by unfold postIncrement; split <;> rfl
@[simp] theorem postIncrement_dt : (postIncrement s).dt = s.dt := by unfold postIncrement; split <;> rfl
@[simp] theorem postIncrement_st : (postIncrement s).st = s.st := by unfold postIncrement; split <;> rfl
@[simp] theorem postIncrement_fb : (postIncrement s).fb = s.fb := by unfold postIncrement; split <;> rfl
@[simp] theorem postIncrement_key : (postIncrement s).key = s.key := by unfold postIncrement; split <;> rfl
@[simp] theorem postIncrement_mem : (postIncrement s).mem = s.mem := by unfold postIncrement; split <;> rfl
@[simp] theorem postIncrement_quirks : (postIncrement s).quirks = s.quirks := by unfold postIncrement; split <;> rfl
@[simp] theorem postIncrement_ctl : (postIncrement s).ctl = s.ctl := by unfold postIncrement; split <;> rfl
@[simp] theorem postIncrement_advance : (postIncrement s).advance = s.advance := by unfold postIncrement; split <;> rfl
@[simp] theorem postIncrement_diags : (postIncrement s).diags = s.diags := by unfold postIncrement; split <;> rfl
@[simp] theorem postIncrement_params : (postIncrement s).params = s.params := by unfold postIncrement; split <;> rfl
@[simp] theorem postIncrement_draws : (postIncrement s).draws = s.draws := by unfold postIncrement; split <;> rfl
@[simp] theorem postIncrement_schedule : (postIncrement s).schedule = s.schedule := by unfold postIncrement; split <;> rfl
end postIncrement

end Sys2Proof.Machine
end

