-- ==== Sys2Proof/Laws/Cycle.lean ====
section
/-! SUPPORT. Laws/Cycle.lean: the cases of a cycle and of a step, said once. -/

namespace Sys2Proof.Machine

/-- When it is the executor's turn, the step is its cycle (60_exceptions.md R315). -/
theorem step_of_executorTurn {s s' : State} (h : executorTurn s s') : step s = cycle s' := by
  rcases h with ⟨hsch, hctl, rfl⟩ | ⟨rest, hsch, hctl, rfl⟩ | ⟨rest, hsch, hctl, rfl⟩
  · simp [step, nextTurn, hsch, hctl]
  · simp [step, nextTurn, hsch, takeTurn, hctl, State.setSchedule]
  · simp [step, nextTurn, hsch, takeTurn, hctl, State.setSchedule]

@[simp] theorem fetchDecode_setAdvance (s : State) (b : Bool) : fetchDecode (s.setAdvance b) = fetchDecode s := rfl

theorem cycle_of_not_fetchable {s : State} (h : ¬ fetchable s.pc) :
    cycle s = .next (fetchFails (s.setAdvance true)) := by
  simp only [cycle, State.setAdvance_pc, h, if_false]

theorem cycle_of_unknown {s : State} {w : Word} (h : fetchable s.pc) (hd : fetchDecode s = .unknown w) :
    cycle s = .next (defaultAdvance (execUnknown w (s.setAdvance true))) := by
  simp only [cycle, State.setAdvance_pc, h, if_true, fetchDecode_setAdvance, hd]

theorem cycle_of_known {s : State} {i : Instr} (h : fetchable s.pc) (hd : fetchDecode s = .known i) :
    cycle s = thenNext (exec i (s.setAdvance true)) defaultAdvance := by
  simp only [cycle, State.setAdvance_pc, h, if_true, fetchDecode_setAdvance, hd]

/-- Everything a cycle can do (40_cycle.md R120, R122, R125). -/
theorem cycle_cases {s t : State} (h : cycle s = .next t) :
    (¬ fetchable s.pc ∧ t = fetchFails (s.setAdvance true)) ∨
    (∃ w, fetchable s.pc ∧ fetchDecode s = .unknown w ∧ t = defaultAdvance (execUnknown w (s.setAdvance true))) ∨
    (∃ i u, fetchable s.pc ∧ fetchDecode s = .known i ∧ exec i (s.setAdvance true) = .next u ∧ t = defaultAdvance u) := by
  by_cases hp : fetchable s.pc
  · cases hd : fetchDecode s with
    | unknown w =>
      rw [cycle_of_unknown hp hd] at h
      exact .inr (.inl ⟨w, hp, rfl, by injection h with h; exact h.symm⟩)
    | known i =>
      rw [cycle_of_known hp hd] at h
      cases he : exec i (s.setAdvance true) with
      | next u =>
        rw [he] at h
        exact .inr (.inr ⟨i, u, hp, rfl, he, by injection h with h; exact h.symm⟩)
      | fault r => cases r
      | refused r => rw [he] at h; cases h
  · rw [cycle_of_not_fetchable hp] at h
    exact .inl ⟨hp, by injection h with h; exact h.symm⟩

/-- Everything a step can do: a cycle, an idle step, or one turn of the schedule. -/
theorem step_cases {s t : State} (h : step s = .next t) :
    (s.schedule = [] ∧ s.ctl = .run ∧ cycle s = .next t) ∨
    (s.schedule = [] ∧ s.ctl ≠ .run ∧ t = s) ∨
    (∃ turn rest, s.schedule = turn :: rest ∧ takeTurn turn (s.setSchedule rest) = .next t) := by
  unfold step nextTurn at h
  split at h
  · next hs =>
    split at h
    · next hc => exact .inl ⟨hs, hc, h⟩
    · next hc => exact .inr (.inl ⟨hs, hc, by injection h with h; exact h.symm⟩)
  · next turn rest hs => exact .inr (.inr ⟨turn, rest, hs, h⟩)

end Sys2Proof.Machine
end

