-- ==== Sys2Proof/Laws/Events.lean ====
section
/-! SUPPORT. Laws/Events.lean: the list of events that a run of bytes raises. -/

namespace Sys2Proof.Machine

@[simp] theorem oobEvents_zero (event : Nat → Diag) (address : Nat → Nat) : oobEvents event address 0 = [] := rfl

/-- One more byte adds its own event when it is out of bounds, after the others (R303). -/
theorem oobEvents_succ (event : Nat → Diag) (address : Nat → Nat) (n : Nat) :
    oobEvents event address (n + 1) = oobEvents event address n ++
      if inBounds (address n) then [] else [event (address n)] := by
  unfold oobEvents
  rw [List.range_succ]
  by_cases h : address n ≤ 4095
  · simp [h, Nat.not_lt.mpr h]
  · simp [h, Nat.lt_of_not_le h]

/-- Every listed event is that of an out-of-bounds byte. -/
theorem mem_oobEvents {event : Nat → Diag} {address : Nat → Nat} {n : Nat} {d : Diag} (h : d ∈ oobEvents event address n) :
    ∃ k < n, ¬ inBounds (address k) ∧ d = event (address k) := by
  simp only [oobEvents, List.mem_map, List.mem_filter, List.mem_range] at h
  obtain ⟨a, ⟨⟨k, hk, rfl⟩, ha⟩, rfl⟩ := h
  exact ⟨k, hk, by simpa using ha, rfl⟩

/-- Bytes that are all in bounds raise nothing. -/
theorem oobEvents_eq_nil {event : Nat → Diag} {address : Nat → Nat} {n : Nat} (h : ∀ k < n, inBounds (address k)) :
    oobEvents event address n = [] := by
  refine List.eq_nil_iff_forall_not_mem.mpr fun d hd => ?_
  obtain ⟨k, hk, hoob, -⟩ := mem_oobEvents hd
  exact hoob (h k hk)

end Sys2Proof.Machine
end

