-- ==== Sys2Proof/Laws/Memory.lean ====
section
/-! SUPPORT. Laws/Memory.lean: read after write, and that every memory operation keeps the canonical form. -/

namespace Sys2Proof.Machine

/-! ### The listed bytes -/

@[simp] theorem Memory.listed_nil (a : Nat) : Memory.listed [] a = none := rfl

theorem Memory.listed_insert_self (m : Memory) (a : Nat) (w : Byte) : Memory.listed (Memory.insert m a w) a = some w := by
  induction m with
  | nil => simp [Memory.insert, Memory.listed]
  | cons c m ih =>
    obtain ⟨b, u⟩ := c
    unfold Memory.insert
    split
    · simp [Memory.listed]
    · split
      · simp [Memory.listed]
      · next h => simp [Memory.listed, Ne.symm h, ih]

theorem Memory.listed_insert_ne (m : Memory) {a a' : Nat} (w : Byte) (h : a' ≠ a) :
    Memory.listed (Memory.insert m a w) a' = Memory.listed m a' := by
  induction m with
  | nil => simp [Memory.insert, Memory.listed, Ne.symm h]
  | cons c m ih =>
    obtain ⟨b, u⟩ := c
    unfold Memory.insert
    split
    · simp [Memory.listed, Ne.symm h]
    · split
      · next hb => subst hb; simp [Memory.listed, Ne.symm h]
      · simp [Memory.listed, ih]

theorem Memory.listed_erase_self (m : Memory) (a : Nat) : Memory.listed (Memory.erase m a) a = none := by
  induction m with
  | nil => rfl
  | cons c m ih =>
    obtain ⟨b, u⟩ := c
    by_cases hb : b = a
    · simpa [Memory.erase, hb] using ih
    · simpa [Memory.erase, Memory.listed, hb] using ih

theorem Memory.listed_erase_ne (m : Memory) {a a' : Nat} (h : a' ≠ a) :
    Memory.listed (Memory.erase m a) a' = Memory.listed m a' := by
  induction m with
  | nil => rfl
  | cons c m ih =>
    obtain ⟨b, u⟩ := c
    by_cases hb : b = a
    · subst hb; simpa [Memory.erase, Memory.listed, Ne.symm h] using ih
    · simp only [Memory.erase, List.filter_cons, hb, ne_eq, not_false_eq_true, decide_true, if_true, Memory.listed] at ih ⊢
      rw [ih]

/-! ### Read after write -/

theorem Memory.read_write_self (font : Font) (m : Memory) (a : Nat) (w : Byte) :
    Memory.read font (Memory.write font m a w) a = w := by
  unfold Memory.write
  split
  · next h => simp [Memory.read, Memory.listed_erase_self, h]
  · simp [Memory.read, Memory.listed_insert_self]

theorem Memory.read_write_ne (font : Font) (m : Memory) {a a' : Nat} (w : Byte) (h : a' ≠ a) :
    Memory.read font (Memory.write font m a w) a' = Memory.read font m a' := by
  unfold Memory.write
  split <;> simp [Memory.read, Memory.listed_erase_ne _ h, Memory.listed_insert_ne _ _ h]

/-! ### The canonical form -/

theorem Memory.wf_nil (font : Font) : Memory.wf font [] := by simp [Memory.wf]

theorem Memory.mem_insert {m : Memory} {a : Nat} {w : Byte} {c : Host.Cell} (h : c ∈ Memory.insert m a w) :
    c = (a, w) ∨ c ∈ m := by
  induction m with
  | nil => simpa [Memory.insert] using h
  | cons d m ih =>
    obtain ⟨b, u⟩ := d
    unfold Memory.insert at h
    split at h
    · simpa using h
    · split at h
      · rcases List.mem_cons.mp h with h | h <;> simp [h]
      · rcases List.mem_cons.mp h with h | h
        · simp [h]
        · rcases ih h with h | h <;> simp [h]

theorem Memory.insert_rising {m : Memory} (a : Nat) (w : Byte) (h : m.Pairwise fun c d => c.1 < d.1) :
    (Memory.insert m a w).Pairwise fun c d => c.1 < d.1 := by
  induction m with
  | nil => simp [Memory.insert]
  | cons c m ih =>
    obtain ⟨b, u⟩ := c
    obtain ⟨hb, hm⟩ := List.pairwise_cons.mp h
    unfold Memory.insert
    split
    · next hab =>
      refine List.pairwise_cons.mpr ⟨fun d hd => ?_, h⟩
      rcases List.mem_cons.mp hd with rfl | hd
      · exact hab
      · exact Nat.lt_trans hab (hb d hd)
    · split
      · next hab => exact List.pairwise_cons.mpr ⟨fun d hd => hab ▸ hb d hd, hm⟩
      · next h1 h2 =>
        refine List.pairwise_cons.mpr ⟨fun d hd => ?_, ih hm⟩
        rcases Memory.mem_insert hd with rfl | hd
        · show b < a; omega
        · exact hb d hd

/-- Every write inside the address space keeps the canonical form. -/
theorem Memory.write_wf {font : Font} {m : Memory} {a : Nat} (w : Byte) (ha : inBounds a) (h : Memory.wf font m) :
    Memory.wf font (Memory.write font m a w) := by
  unfold Memory.write
  split
  · exact ⟨h.1.filter _, fun c hc => h.2 c (List.mem_filter.mp hc).1⟩
  · next hw =>
    refine ⟨Memory.insert_rising a w h.1, fun c hc => ?_⟩
    rcases Memory.mem_insert hc with rfl | hc
    · exact ⟨ha, hw⟩
    · exact h.2 c hc

theorem reset_memory_wf : Memory.wf State.reset.params.font State.reset.mem := Memory.wf_nil _

/-! ### Bytes of a state -/

/-- The byte at an address depends on the memory and the font alone. -/
theorem byteAt_congr {s t : State} (hp : t.params = s.params) (hm : t.mem = s.mem) (a : Nat) : byteAt a t = byteAt a s := by
  simp [byteAt, hp, hm]

@[simp] theorem byteAt_pokeByte_self (a : Nat) (b : Byte) (s : State) : byteAt a (pokeByte a b s) = b :=
  Memory.read_write_self _ _ _ _

theorem byteAt_pokeByte_ne {a a' : Nat} (b : Byte) (s : State) (h : a' ≠ a) : byteAt a' (pokeByte a b s) = byteAt a' s :=
  Memory.read_write_ne _ _ _ h

@[simp] theorem byteAt_raiseHere (a : Nat) (code : DiagCode) (w : Option Word) (n : Option Nat) (s : State) :
    byteAt a (raiseHere code w n s) = byteAt a s := rfl

/-- A store: the bytes in and out of the stored one. -/
theorem byteAt_memWrite (a a' : Nat) (b : Byte) (s : State) :
    byteAt a' (memWrite a b s) = if inBounds a ∧ a' = a then b else byteAt a' s := by
  unfold memWrite
  by_cases ha : inBounds a
  · by_cases h : a' = a
    · subst h; simp [ha]
    · simp [ha, h, byteAt_pokeByte_ne _ _ h]
  · simp [ha]

/-- The events of a store: none inside the address space, one WRITE_OOB outside it. -/
theorem memWrite_diags (a : Nat) (b : Byte) (s : State) :
    (memWrite a b s).diags = s.diags ++ if inBounds a then [] else
      [{ code := .writeOob, pc := some s.pc, word := none, addr := some a }] := by
  unfold memWrite
  split <;> simp

theorem memWrite_wf {s : State} (a : Nat) (b : Byte) (h : Memory.wf s.params.font s.mem) :
    Memory.wf (memWrite a b s).params.font (memWrite a b s).mem := by
  unfold memWrite
  split
  · next ha => exact Memory.write_wf b ha h
  · exact h

theorem romByte_wf {s : State} (a : Nat) (b : Byte) (h : Memory.wf s.params.font s.mem) :
    Memory.wf (romByte a b s).params.font (romByte a b s).mem := by
  unfold romByte
  split
  · next ha => exact Memory.write_wf b ha h
  · exact h

/-- A data read inside the address space: the byte, nothing changed (R63, R71). -/
theorem memRead_of_inBounds {a : Nat} (s : State) (h : inBounds a) : memRead a s = (some (byteAt a s), s) := by
  simp [memRead, h]

/-- A data read outside it: no byte, one READ_OOB event (R63). -/
theorem memRead_of_oob {a : Nat} (s : State) (h : ¬ inBounds a) :
    memRead a s = (none, raiseHere .readOob none (some a) s) := by
  simp [memRead, h]

end Sys2Proof.Machine
end

