-- ==== Sys2Proof/Laws/Registers.lean ====
section
/-! SUPPORT. Laws/Registers.lean: reads after writes of V0–VF, the framebuffer and the keyboard. -/

namespace Sys2Proof.Machine

@[simp] theorem readV_writeV_self (x : Nibble) (b : Byte) (s : State) : readV x (writeV x b s) = b := by
  simp [readV, writeV]

theorem readV_writeV_ne {x r : Nibble} (b : Byte) (s : State) (h : r ≠ x) : readV r (writeV x b s) = readV r s := by
  have hn : x.toNat ≠ r.toNat := fun e => h (BitVec.eq_of_toNat_eq e).symm
  simp [readV, writeV, hn]

theorem readV_writeV (x r : Nibble) (b : Byte) (s : State) :
    readV r (writeV x b s) = if r = x then b else readV r s := by
  split
  · next h => subst h; simp
  · next h => exact readV_writeV_ne b s h

@[simp] theorem readV_writeFlag_VF (b : Byte) (s : State) : readV VF (writeFlag b s) = b := readV_writeV_self _ _ _

theorem readV_writeFlag_ne {r : Nibble} (b : Byte) (s : State) (h : r ≠ VF) : readV r (writeFlag b s) = readV r s :=
  readV_writeV_ne b s h

/-- A register read depends on the register file alone. -/
theorem readV_congr {s t : State} (h : t.v = s.v) (r : Nibble) : readV r t = readV r s := by simp [readV, h]

/-- Two register files with the same sixteen registers are equal. -/
theorem v_ext {s t : State} (h : ∀ r, readV r t = readV r s) : t.v = s.v := by
  apply Vector.ext
  intro k hk
  have := h (BitVec.ofNat 4 k)
  simpa [readV, Nat.mod_eq_of_lt (show k < 16 from hk)] using this

/-! ### Framebuffer -/

theorem cell_setCell (X X' : Fin 64) (Y Y' : Fin 32) (b : Bool) (s : State) :
    cell X' Y' (setCell X Y b s) = if X' = X ∧ Y' = Y then b else cell X' Y' s := by
  by_cases hY : Y' = Y
  · subst hY
    by_cases hX : X' = X
    · subst hX; simp [cell, setCell]
    · have : X.val ≠ X'.val := fun e => hX (Fin.ext e).symm
      simp [cell, setCell, hX, this]
  · have : Y.val ≠ Y'.val := fun e => hY (Fin.ext e).symm
    simp [cell, setCell, hY, this]

@[simp] theorem cell_clearGrid (X : Fin 64) (Y : Fin 32) (s : State) : cell X Y (clearGrid s) = false := by
  simp [cell, clearGrid]

theorem cell_congr {s t : State} (h : t.fb = s.fb) (X : Fin 64) (Y : Fin 32) : cell X Y t = cell X Y s := by
  simp [cell, h]

/-- Two framebuffers with the same cells are equal. -/
theorem fb_ext {s t : State} (h : ∀ X Y, cell X Y t = cell X Y s) : t.fb = s.fb := by
  apply Vector.ext
  intro Y hY
  apply Vector.ext
  intro X hX
  simpa [cell] using h ⟨X, hX⟩ ⟨Y, hY⟩

/-! ### Keyboard -/

theorem keySlot_setKeySlot (k j : Nibble) (b : Bool) (s : State) :
    keySlot j (setKeySlot k b s) = if j = k then b else keySlot j s := by
  split
  · next h => subst h; simp [keySlot, setKeySlot]
  · next h =>
    have hn : k.toNat ≠ j.toNat := fun e => h (BitVec.eq_of_toNat_eq e).symm
    simp [keySlot, setKeySlot, hn]

/-- The lowest pressed slot: pressed, and no lower one is (R263). -/
theorem lowestKey_eq_some {s : State} {k : Nat} (h : lowestKey s = some k) :
    ∃ hk : k < 16, s.key[k] = true ∧ ∀ j (hj : j < k), s.key[j]'(by omega) = false := by
  obtain ⟨hlen, hk, hlow⟩ := List.findIdx?_eq_some_iff_getElem.mp h
  have hk16 : k < 16 := by simpa using hlen
  exact ⟨hk16, by simpa using hk, fun j hj => by simpa using hlow j hj⟩

/-- No slot pressed (R263). -/
theorem lowestKey_eq_none {s : State} : lowestKey s = none ↔ ∀ k (hk : k < 16), s.key[k] = false := by
  unfold lowestKey
  rw [List.findIdx?_eq_none_iff]
  constructor
  · intro h k hk
    simpa using h s.key[k] (by simp)
  · intro h b hb
    obtain ⟨k, hk, rfl⟩ := Vector.mem_iff_getElem.mp (Vector.mem_toList_iff.mp hb)
    exact h k hk

end Sys2Proof.Machine
end

