-- ==== Sys2Proof/Laws/Draw.lean ====
section
/-! SUPPORT. Laws/Draw.lean: what drawing does, said once: a set of cells is flipped, VF tells whether one of them was on,
and the events are the out-of-bounds rows. -/

namespace Sys2Proof.Machine

/-- From `s` to `t` exactly the cells of `P` are flipped, VF becomes 1 when one of them was on and is kept otherwise, and nothing
but the registers, the framebuffer and the diagnostic stream may differ. -/
structure Paints (P : Fin 64 → Fin 32 → Prop) (s t : State) : Prop where
  cells : ∀ X Y, cell X Y t = true ↔ (cell X Y s = true ↔ ¬ P X Y)
  hit : ∀ X Y, P X Y → cell X Y s = true → readV VF t = 1
  miss : (∀ X Y, P X Y → cell X Y s = false) → readV VF t = readV VF s
  regs : ∀ r, r ≠ VF → readV r t = readV r s
  frame : t = { s with v := t.v, fb := t.fb, diags := t.diags }

theorem Paints.nothing {P : Fin 64 → Fin 32 → Prop} (h : ∀ X Y, ¬ P X Y) (s : State) : Paints P s s where
  cells X Y := by simp [h X Y]
  hit X Y hP := (h X Y hP).elim
  miss _ := rfl
  regs _ _ := rfl
  frame := rfl

theorem Paints.congr {P Q : Fin 64 → Fin 32 → Prop} {s t : State} (h : ∀ X Y, Q X Y ↔ P X Y) (hP : Paints P s t) :
    Paints Q s t := by
  have : Q = P := by funext X Y; exact propext (h X Y)
  exact this ▸ hP

/-- Painting two disjoint sets one after the other. -/
theorem Paints.trans {P Q : Fin 64 → Fin 32 → Prop} {s t u : State} (hP : Paints P s t) (hQ : Paints Q t u)
    (disj : ∀ X Y, P X Y → ¬ Q X Y) : Paints (fun X Y => P X Y ∨ Q X Y) s u where
  cells X Y := by
    have h1 := hP.cells X Y
    have h2 := hQ.cells X Y
    have h3 := disj X Y
    tauto
  hit X Y h hs := by
    by_cases hq : ∃ X Y, Q X Y ∧ cell X Y t = true
    · obtain ⟨X', Y', hq, ht⟩ := hq
      exact hQ.hit X' Y' hq ht
    · have hmiss : ∀ X Y, Q X Y → cell X Y t = false := fun X' Y' hq' => by
        by_contra hc
        exact hq ⟨X', Y', hq', by simpa using hc⟩
      rw [hQ.miss hmiss]
      rcases h with h | h
      · exact hP.hit X Y h hs
      · have hnP : ¬ P X Y := fun hp => disj X Y hp h
        have := hmiss X Y h
        have := (hP.cells X Y).mpr (by simp [hs, hnP])
        simp_all
  miss h := by
    rw [hQ.miss, hP.miss]
    · exact fun X Y hp => h X Y (.inl hp)
    · intro X Y hq
      have hnP : ¬ P X Y := fun hp => disj X Y hp hq
      have h1 := hP.cells X Y
      have h2 := h X Y (.inr hq)
      by_contra hc
      have hc' : cell X Y t = true := by simpa using hc
      simp [h2, hnP] at h1
      simp [h1] at hc'
  regs r hr := (hQ.regs r hr).trans (hP.regs r hr)
  frame := by
    have h1 := hP.frame
    have h2 := hQ.frame
    rw [h2, h1]

/-- A step that leaves the registers and the framebuffer alone before or after painting. -/
theorem Paints.of_diags {P : Fin 64 → Fin 32 → Prop} {s s' t : State} (h : Paints P s' t)
    (hs : s' = { s with diags := s'.diags }) : Paints P s t where
  cells X Y := by
    have : cell X Y s' = cell X Y s := by rw [hs]; rfl
    simpa [this] using h.cells X Y
  hit X Y hP hc := h.hit X Y hP (by rw [hs]; exact hc)
  miss hm := by
    rw [h.miss (fun X Y hP => by rw [hs]; exact hm X Y hP), hs]
    rfl
  regs r hr := by
    rw [h.regs r hr, hs]
    rfl
  frame := by rw [h.frame, hs]

/-! ### One pixel -/

theorem xorPixel_paints (X : Fin 64) (Y : Fin 32) (s : State) :
    Paints (fun X' Y' => X' = X ∧ Y' = Y) s (xorPixel X Y s) where
  cells X' Y' := by
    unfold xorPixel
    split
    · next h =>
      have : cell X' Y' (writeFlag 1 (setCell X Y false s)) = cell X' Y' (setCell X Y false s) := cell_congr (by simp) _ _
      rw [this, cell_setCell]
      split
      · next e => obtain ⟨rfl, rfl⟩ := e; simp [h]
      · next e => simp [e]
    · next h =>
      rw [cell_setCell]
      split
      · next e => obtain ⟨rfl, rfl⟩ := e; simp [h]
      · next e => simp [e]
  hit X' Y' := by rintro ⟨rfl, rfl⟩ h; simp [xorPixel, h]
  miss h := by
    have := h X Y ⟨rfl, rfl⟩
    simp only [xorPixel, this, Bool.false_eq_true, if_false]
    exact readV_congr (by simp) _
  regs r hr := by
    unfold xorPixel
    split
    · rw [readV_writeFlag_ne _ _ hr]; exact readV_congr (by simp) _
    · exact readV_congr (by simp) _
  frame := by
    unfold xorPixel
    split <;> rfl

@[simp] theorem xorPixel_quirks (X : Fin 64) (Y : Fin 32) (s : State) : (xorPixel X Y s).quirks = s.quirks := by
  rw [(xorPixel_paints X Y s).frame]

@[simp] theorem xorPixel_diags (X : Fin 64) (Y : Fin 32) (s : State) : (xorPixel X Y s).diags = s.diags := by
  unfold xorPixel
  split <;> simp

/-! ### One row -/

/-- A pixel whose bit position is past a clipped one of the same row is clipped too (R143). -/
theorem pixelTarget_none_mono {wrap : Bool} {X Y k : Nat} (h : pixelTarget wrap X Y = none) :
    pixelTarget wrap (X + k) Y = none := by
  unfold pixelTarget at h ⊢
  cases wrap
  · simp only [Bool.false_eq_true, if_false, dite_eq_right_iff, reduceCtorEq, imp_false] at h ⊢
    omega
  · simp at h

/-- The target of a pixel, as coordinates. -/
theorem pixelTarget_eq_some {wrap : Bool} {X Y : Nat} {X' : Fin 64} {Y' : Fin 32} :
    pixelTarget wrap X Y = some (X', Y') ↔
      if wrap then X % 64 = X' ∧ Y % 32 = Y' else X = X' ∧ Y = Y' := by
  unfold pixelTarget
  cases wrap
  · simp only [Bool.false_eq_true, if_false]
    constructor
    · intro h
      split at h
      · simp only [Option.some.injEq, Prod.mk.injEq] at h
        obtain ⟨rfl, rfl⟩ := h
        exact ⟨rfl, rfl⟩
      · cases h
    · rintro ⟨rfl, rfl⟩
      simp
  · simp [Fin.ext_iff]

/-- "Within one Dxyn no cell is hit twice" (R141): two bits of a row land apart. -/
theorem pixelTarget_bits_apart {wrap : Bool} {X Y j k : Nat} {c : Fin 64 × Fin 32} (hj : j < 8) (hk : k < 8)
    (h1 : pixelTarget wrap (X + j) Y = some c) (h2 : pixelTarget wrap (X + k) Y = some c) : j = k := by
  rw [pixelTarget_eq_some] at h1 h2
  cases wrap <;> simp at h1 h2 <;> omega

/-- Two rows of a sprite land apart (R141). -/
theorem pixelTarget_rows_apart {wrap : Bool} {X X' Y i k : Nat} {c : Fin 64 × Fin 32} (hi : i < 16) (hk : k < 16)
    (h1 : pixelTarget wrap X (Y + i) = some c) (h2 : pixelTarget wrap X' (Y + k) = some c) : i = k := by
  rw [pixelTarget_eq_some] at h1 h2
  cases wrap <;> simp at h1 h2 <;> omega

/-- The cells that the bits `js` of row byte `b` at (X0, Y) land on. -/
def rowCells (wrap : Bool) (b : Byte) (X0 Y : Nat) (js : List Nat) (X : Fin 64) (Y' : Fin 32) : Prop :=
  ∃ j ∈ js, b.getLsbD (7 - j) = true ∧ pixelTarget wrap (X0 + j) Y = some (X, Y')

theorem drawBits_diags (b : Byte) (X0 Y : Nat) (js : List Nat) (s : State) : (drawBits b X0 Y js s).diags = s.diags := by
  induction js generalizing s with
  | nil => rfl
  | cons j js ih =>
    unfold drawBits
    split
    · rfl
    · rw [ih]; split <;> simp

theorem drawBits_paints (b : Byte) (X0 Y : Nat) (js : List Nat) (hjs : js.Pairwise (· < ·)) (h8 : ∀ j ∈ js, j < 8)
    (s : State) : Paints (rowCells s.quirks.drawSpriteWrap b X0 Y js) s (drawBits b X0 Y js s) := by
  induction js generalizing s with
  | nil => exact Paints.nothing (by simp [rowCells]) s
  | cons j js ih =>
    obtain ⟨hj, hjs⟩ := List.pairwise_cons.mp hjs
    unfold drawBits
    split
    · next hclip =>
      refine Paints.nothing (fun X Y' hc => ?_) s
      obtain ⟨k, hk, -, hland⟩ := hc
      rcases List.mem_cons.mp hk with rfl | hk
      · simp [hclip] at hland
      · have := pixelTarget_none_mono (k := k - j) hclip
        rw [show X0 + j + (k - j) = X0 + k by have := hj k hk; omega] at this
        simp [this] at hland
    · next X Y' hland =>
      have h8' : ∀ k ∈ js, k < 8 := fun k hk => h8 k (List.mem_cons_of_mem _ hk)
      cases hb : b.getLsbD (7 - j)
      · simp only [Bool.false_eq_true, if_false]
        refine (ih hjs h8' s).congr fun U W => ?_
        simp [rowCells, hb]
      · simp only [if_true]
        have h2 := ih hjs h8' (xorPixel X Y' s)
        rw [xorPixel_quirks] at h2
        refine ((xorPixel_paints X Y' s).trans h2 ?_).congr fun U W => ?_
        · rintro U W ⟨rfl, rfl⟩ ⟨k, hk, -, hland'⟩
          have := pixelTarget_bits_apart (h8 j (by simp)) (h8' k hk) hland hland'
          have := hj k hk
          omega
        · simp only [rowCells, List.mem_cons, exists_eq_or_imp, hb, hland, true_and, Option.some.injEq, Prod.mk.injEq]
          constructor
          · rintro (⟨rfl, rfl⟩ | h)
            · exact .inl ⟨rfl, rfl⟩
            · exact .inr h
          · rintro (⟨rfl, rfl⟩ | h)
            · exact .inl ⟨rfl, rfl⟩
            · exact .inr h

/-! ### The whole sprite -/

/-- The cells that row `i` of the sprite at (X0, Y0) lands on: none when its byte is out of bounds (R142). -/
def spriteRowCells (s : State) (X0 Y0 i : Nat) (X : Fin 64) (Y : Fin 32) : Prop :=
  inBounds (s.i.toNat + i) ∧ rowCells s.quirks.drawSpriteWrap (byteAt (s.i.toNat + i) s) X0 (Y0 + i) (List.range 8) X Y

theorem drawRow_paints (X0 Y0 : Nat) (s : State) (i : Nat) :
    Paints (spriteRowCells s X0 Y0 i) s (drawRow X0 Y0 s i) := by
  unfold drawRow
  by_cases h : inBounds (s.i.toNat + i)
  · rw [memRead_of_inBounds s h]
    refine (drawBits_paints _ _ _ _ List.pairwise_lt_range (by simp) s).congr fun X Y => ?_
    simp [spriteRowCells, h]
  · rw [memRead_of_oob s h]
    exact (Paints.nothing (fun X Y hc => h hc.1) _).of_diags rfl

theorem drawRow_diags (X0 Y0 : Nat) (s : State) (i : Nat) :
    (drawRow X0 Y0 s i).diags = s.diags ++ if inBounds (s.i.toNat + i) then [] else
      [readOobEvent s.pc (s.i.toNat + i)] := by
  unfold drawRow
  by_cases h : inBounds (s.i.toNat + i)
  · rw [memRead_of_inBounds s h]; simp [drawBits_diags, h]
  · rw [memRead_of_oob s h]; simp [h, readOobEvent]

/-- All rows: every cell any row lands on is flipped once, VF tells of a collision (R141, R144), and each out-of-bounds
row raises one READ_OOB, in order (R142, R303). -/
theorem drawRows_spec (X0 Y0 : Nat) (s : State) (n : Nat) (hn : n ≤ 16) :
    Paints (fun X Y => ∃ i < n, spriteRowCells s X0 Y0 i X Y) s ((List.range n).foldl (drawRow X0 Y0) s) ∧
    ((List.range n).foldl (drawRow X0 Y0) s).diags = s.diags ++ oobEvents (readOobEvent s.pc) (s.i.toNat + ·) n := by
  induction n with
  | zero => exact ⟨Paints.nothing (by simp) s, by simp [oobEvents]⟩
  | succ n ih =>
    obtain ⟨hP, hD⟩ := ih (by omega)
    rw [List.range_succ, List.foldl_append, List.foldl_cons, List.foldl_nil]
    generalize ht : (List.range n).foldl (drawRow X0 Y0) s = t at hP hD
    have hf := hP.frame
    have hrow : ∀ X Y, spriteRowCells t X0 Y0 n X Y ↔ spriteRowCells s X0 Y0 n X Y := by
      intro X Y; rw [hf]; rfl
    have hi : t.i = s.i := by rw [hf]
    have hpc : t.pc = s.pc := by rw [hf]
    constructor
    · refine (hP.trans (drawRow_paints X0 Y0 t n) ?_).congr fun X Y => ?_
      · rintro X Y ⟨i, hi, -, j, -, -, h1⟩ h
        obtain ⟨-, k, -, -, h2⟩ := (hrow X Y).mp h
        have := pixelTarget_rows_apart (by omega) (by omega) h1 h2
        omega
      · simp only [hrow, Nat.lt_succ_iff_lt_or_eq, or_and_right, exists_or, exists_eq_left]
    · rw [drawRow_diags, hD, hi, hpc, oobEvents_succ, List.append_assoc]

end Sys2Proof.Machine
end

