-- ==== Sys2Proof/Laws/PerInstr.lean ====
section
/-! SUPPORT. Laws/PerInstr.lean: per instruction, the word the encoder writes is in the row the opcode table gives that
instruction. The encoder is written from the formats (30_encoding.md R93), the row from the table's mask and match (R94). -/

namespace Sys2Proof.Laws

/-- The encoded word is accepted by the instruction's own row. -/
def EncodeInRow.Statement (i : Instr) : Prop := i.row.accepts (encode i) = true

theorem EncodeInRow.cls : EncodeInRow.Statement .cls := rfl
theorem EncodeInRow.ret : EncodeInRow.Statement .ret := rfl
theorem EncodeInRow.jp (nnn : Addr12) : EncodeInRow.Statement (.jp nnn) := beq_iff_eq.mpr (mask_nnn _ _)
theorem EncodeInRow.call (nnn : Addr12) : EncodeInRow.Statement (.call nnn) := beq_iff_eq.mpr (mask_nnn _ _)
theorem EncodeInRow.seImm (x : Nibble) (nn : Byte) : EncodeInRow.Statement (.seImm x nn) := beq_iff_eq.mpr (mask_xnn _ _ _)
theorem EncodeInRow.sneImm (x : Nibble) (nn : Byte) : EncodeInRow.Statement (.sneImm x nn) := beq_iff_eq.mpr (mask_xnn _ _ _)
theorem EncodeInRow.seReg (x : Nibble) (y : Nibble) : EncodeInRow.Statement (.seReg x y) := beq_iff_eq.mpr (mask_xys _ _ _ _)
theorem EncodeInRow.ldImm (x : Nibble) (nn : Byte) : EncodeInRow.Statement (.ldImm x nn) := beq_iff_eq.mpr (mask_xnn _ _ _)
theorem EncodeInRow.addImm (x : Nibble) (nn : Byte) : EncodeInRow.Statement (.addImm x nn) := beq_iff_eq.mpr (mask_xnn _ _ _)
theorem EncodeInRow.ldReg (x : Nibble) (y : Nibble) : EncodeInRow.Statement (.ldReg x y) := beq_iff_eq.mpr (mask_xys _ _ _ _)
theorem EncodeInRow.orReg (x : Nibble) (y : Nibble) : EncodeInRow.Statement (.orReg x y) := beq_iff_eq.mpr (mask_xys _ _ _ _)
theorem EncodeInRow.andReg (x : Nibble) (y : Nibble) : EncodeInRow.Statement (.andReg x y) := beq_iff_eq.mpr (mask_xys _ _ _ _)
theorem EncodeInRow.xorReg (x : Nibble) (y : Nibble) : EncodeInRow.Statement (.xorReg x y) := beq_iff_eq.mpr (mask_xys _ _ _ _)
theorem EncodeInRow.addReg (x : Nibble) (y : Nibble) : EncodeInRow.Statement (.addReg x y) := beq_iff_eq.mpr (mask_xys _ _ _ _)
theorem EncodeInRow.sub (x : Nibble) (y : Nibble) : EncodeInRow.Statement (.sub x y) := beq_iff_eq.mpr (mask_xys _ _ _ _)
theorem EncodeInRow.shr (x : Nibble) (y : Nibble) : EncodeInRow.Statement (.shr x y) := beq_iff_eq.mpr (mask_xys _ _ _ _)
theorem EncodeInRow.subn (x : Nibble) (y : Nibble) : EncodeInRow.Statement (.subn x y) := beq_iff_eq.mpr (mask_xys _ _ _ _)
theorem EncodeInRow.shl (x : Nibble) (y : Nibble) : EncodeInRow.Statement (.shl x y) := beq_iff_eq.mpr (mask_xys _ _ _ _)
theorem EncodeInRow.sneReg (x : Nibble) (y : Nibble) : EncodeInRow.Statement (.sneReg x y) := beq_iff_eq.mpr (mask_xys _ _ _ _)
theorem EncodeInRow.ldI (nnn : Addr12) : EncodeInRow.Statement (.ldI nnn) := beq_iff_eq.mpr (mask_nnn _ _)
theorem EncodeInRow.jpOff (nnn : Addr12) (x : Nibble) (nn : Byte) : EncodeInRow.Statement (.jpOff nnn x nn) := beq_iff_eq.mpr (mask_nnn _ _)
theorem EncodeInRow.rnd (x : Nibble) (nn : Byte) : EncodeInRow.Statement (.rnd x nn) := beq_iff_eq.mpr (mask_xnn _ _ _)
theorem EncodeInRow.drw (x : Nibble) (y : Nibble) (n : Nibble) : EncodeInRow.Statement (.drw x y n) := beq_iff_eq.mpr (mask_xyn _ _ _ _)
theorem EncodeInRow.skp (x : Nibble) : EncodeInRow.Statement (.skp x) := beq_iff_eq.mpr (mask_xs _ _ _)
theorem EncodeInRow.sknp (x : Nibble) : EncodeInRow.Statement (.sknp x) := beq_iff_eq.mpr (mask_xs _ _ _)
theorem EncodeInRow.ldVxDt (x : Nibble) : EncodeInRow.Statement (.ldVxDt x) := beq_iff_eq.mpr (mask_xs _ _ _)
theorem EncodeInRow.ldVxK (x : Nibble) : EncodeInRow.Statement (.ldVxK x) := beq_iff_eq.mpr (mask_xs _ _ _)
theorem EncodeInRow.ldDtVx (x : Nibble) : EncodeInRow.Statement (.ldDtVx x) := beq_iff_eq.mpr (mask_xs _ _ _)
theorem EncodeInRow.ldStVx (x : Nibble) : EncodeInRow.Statement (.ldStVx x) := beq_iff_eq.mpr (mask_xs _ _ _)
theorem EncodeInRow.addI (x : Nibble) : EncodeInRow.Statement (.addI x) := beq_iff_eq.mpr (mask_xs _ _ _)
theorem EncodeInRow.ldF (x : Nibble) : EncodeInRow.Statement (.ldF x) := beq_iff_eq.mpr (mask_xs _ _ _)
theorem EncodeInRow.ldB (x : Nibble) : EncodeInRow.Statement (.ldB x) := beq_iff_eq.mpr (mask_xs _ _ _)
theorem EncodeInRow.ldMemVx (x : Nibble) : EncodeInRow.Statement (.ldMemVx x) := beq_iff_eq.mpr (mask_xs _ _ _)
theorem EncodeInRow.ldVxMem (x : Nibble) : EncodeInRow.Statement (.ldVxMem x) := beq_iff_eq.mpr (mask_xs _ _ _)

end Sys2Proof.Laws
end

