-- ==== Sys2Proof/Laws/Transfer.lean ====
section
/-! SUPPORT. Laws/Transfer.lean: what the loops of Fx55 and Fx65, and the ROM copy, do, said once. -/

namespace Sys2Proof.Machine

/-- Bytes 0 to 15 of a transfer have different addresses. -/
theorem transferAddress_injective {s : State} {j k : Nat} (hj : j < 16) (hk : k < 16)
    (h : transferAddress s j = transferAddress s k) : j = k := by
  unfold transferAddress at h
  split at h
  · have := s.i.isLt; omega
  · omega

theorem indexAfter_zero (s : State) : indexAfter s 0 = s.i := by simp [indexAfter]

/-- The address that byte `n` uses, once I has been moved `n` times. -/
theorem indexAddress_after {s t : State} {n : Nat} (hq : t.quirks = s.quirks) (hi : t.i = indexAfter s n) :
    indexAddress n t = transferAddress s n := by
  unfold indexAddress transferAddress
  rw [hq, hi]
  unfold indexAfter
  split
  · simp [BitVec.toNat_add]
  · rfl

theorem indexAfter_succ {s t : State} {n : Nat} (hq : t.quirks = s.quirks) (hi : t.i = indexAfter s n) :
    (postIncrement t).i = indexAfter s (n + 1) := by
  rw [postIncrement_i, hq, hi]
  unfold indexAfter
  split
  · rw [BitVec.add_assoc]
    congr 1
    exact (BitVec.ofNat_add n 1).symm
  · rfl

/-! ### Fx55 -/

theorem storeV_frame (s : State) (k : Nat) :
    storeV s k = { s with mem := (storeV s k).mem, i := (storeV s k).i, diags := (storeV s k).diags } := by
  apply State.ext <;> simp [storeV]

/-- The first `n` bytes of Fx55 (R234). -/
theorem storeV_fold (s : State) (n : Nat) (hn : n ≤ 16) :
    let t := (List.range n).foldl storeV s
    (∀ k < n, inBounds (transferAddress s k) → byteAt (transferAddress s k) t = readV (BitVec.ofNat 4 k) s) ∧
    (∀ a, (∀ k < n, inBounds (transferAddress s k) → a ≠ transferAddress s k) → byteAt a t = byteAt a s) ∧
    t.i = indexAfter s n ∧
    t.diags = s.diags ++ oobEvents (writeOobEvent s.pc) (transferAddress s) n ∧
    t = { s with mem := t.mem, i := t.i, diags := t.diags } := by
  induction n with
  | zero => exact ⟨by simp, by simp, (indexAfter_zero s).symm, by simp, rfl⟩
  | succ n ih =>
    obtain ⟨hin, hout, hi, hd, hf⟩ := ih (by omega)
    rw [List.range_succ, List.foldl_append, List.foldl_cons, List.foldl_nil]
    generalize (List.range n).foldl storeV s = t at hin hout hi hd hf
    have hq : t.quirks = s.quirks := by rw [hf]
    have ha := indexAddress_after hq hi
    have hb : ∀ a, byteAt a (storeV t n) =
        if inBounds (transferAddress s n) ∧ a = transferAddress s n then readV (BitVec.ofNat 4 n) s else byteAt a t := by
      intro a
      have hv : readV (BitVec.ofNat 4 n) t = readV (BitVec.ofNat 4 n) s := readV_congr (by rw [hf]) _
      rw [storeV, byteAt_congr (postIncrement_params _) (postIncrement_mem _), byteAt_memWrite, ha, hv]
    refine ⟨fun k hk hkb => ?_, fun a hne => ?_, ?_, ?_, ?_⟩
    · rw [hb]
      by_cases hkn : k = n
      · subst hkn; simp [hkb]
      · have hne : transferAddress s k ≠ transferAddress s n := fun e =>
          hkn (transferAddress_injective (by omega) (by omega) e)
        simp only [hne, and_false, if_false]
        exact hin k (by omega) hkb
    · rw [hb, if_neg fun ⟨h1, h2⟩ => hne n (by omega) h1 h2]
      exact hout a fun k hk => hne k (by omega)
    · exact indexAfter_succ (by rw [memWrite_quirks, hq]) (by rw [memWrite_i, hi])
    · have hpc : t.pc = s.pc := by rw [hf]
      rw [storeV, postIncrement_diags, memWrite_diags, ha, hpc, hd, oobEvents_succ, List.append_assoc]
      rfl
    · rw [storeV_frame t n, hf]

theorem storeV_wf {s : State} (k : Nat) (h : Memory.wf s.params.font s.mem) :
    Memory.wf (storeV s k).params.font (storeV s k).mem := by
  rw [storeV, postIncrement_params, postIncrement_mem]
  exact memWrite_wf _ _ h

/-! ### Fx65 -/

/-- One byte of Fx65: the register of an in-bounds byte is loaded, an out-of-bounds one raises its event (R235). -/
theorem loadV_eq (s : State) (k : Nat) : loadV s k = postIncrement (
    if inBounds (indexAddress k s) then writeV (BitVec.ofNat 4 k) (byteAt (indexAddress k s) s) s
    else raiseHere .readOob none (some (indexAddress k s)) s) := by
  unfold loadV
  by_cases h : inBounds (indexAddress k s)
  · rw [memRead_of_inBounds s h]; simp [h]
  · rw [memRead_of_oob s h]; simp [h]

theorem loadV_frame (s : State) (k : Nat) :
    loadV s k = { s with v := (loadV s k).v, i := (loadV s k).i, diags := (loadV s k).diags } := by
  rw [loadV_eq]
  apply State.ext <;> split <;> simp

/-- The first `n` bytes of Fx65 (R235). -/
theorem loadV_fold (s : State) (n : Nat) (hn : n ≤ 16) :
    let t := (List.range n).foldl loadV s
    (∀ k < n, readV (BitVec.ofNat 4 k) t =
      if inBounds (transferAddress s k) then byteAt (transferAddress s k) s else readV (BitVec.ofNat 4 k) s) ∧
    (∀ r : Nibble, n ≤ r.toNat → readV r t = readV r s) ∧
    t.i = indexAfter s n ∧
    t.diags = s.diags ++ oobEvents (readOobEvent s.pc) (transferAddress s) n ∧
    t = { s with v := t.v, i := t.i, diags := t.diags } := by
  induction n with
  | zero => exact ⟨by simp, by simp, (indexAfter_zero s).symm, by simp, rfl⟩
  | succ n ih =>
    obtain ⟨hin, hout, hi, hd, hf⟩ := ih (by omega)
    rw [List.range_succ, List.foldl_append, List.foldl_cons, List.foldl_nil]
    generalize (List.range n).foldl loadV s = t at hin hout hi hd hf
    have hq : t.quirks = s.quirks := by rw [hf]
    have ha := indexAddress_after hq hi
    have hby : ∀ a, byteAt a t = byteAt a s := fun a => byteAt_congr (by rw [hf]) (by rw [hf]) a
    have hn4 : (BitVec.ofNat 4 n).toNat = n := by simp; omega
    have hv : ∀ r, readV r (loadV t n) =
        if r = BitVec.ofNat 4 n ∧ inBounds (transferAddress s n) then byteAt (transferAddress s n) s else readV r t := by
      intro r
      rw [loadV_eq, ha, readV_congr (postIncrement_v _)]
      split
      · next h => rw [readV_writeV, hby]; simp [h]
      · next h => simp only [h, and_false, if_false]; exact readV_congr rfl r
    refine ⟨fun k hk => ?_, fun r hr => ?_, ?_, ?_, ?_⟩
    · rw [hv]
      by_cases hkn : k = n
      · subst hkn
        have hsame := hout (BitVec.ofNat 4 k) (by omega)
        simp only [true_and]
        split
        · rfl
        · exact hsame
      · have hne : BitVec.ofNat 4 k ≠ BitVec.ofNat 4 n := fun e => by
          have := congrArg BitVec.toNat e; simp at this; omega
        simp only [hne, false_and, if_false]
        exact hin k (by omega)
    · rw [hv]
      have hne : r ≠ BitVec.ofNat 4 n := fun e => by
        have := congrArg BitVec.toNat e; omega
      simp only [hne, false_and, if_false]
      exact hout r (by omega)
    · rw [loadV_eq]
      split <;> exact indexAfter_succ (by simp [hq]) (by simp [hi])
    · have hpc : t.pc = s.pc := by rw [hf]
      rw [loadV_eq, postIncrement_diags, ha, oobEvents_succ]
      split
      · next h => simp [hd]
      · next h => simp [hd, hpc, readOobEvent, List.append_assoc]
    · rw [loadV_frame t n, hf]

/-! ### The ROM copy -/

theorem byteAt_romByte (a a' : Nat) (b : Byte) (s : State) :
    byteAt a' (romByte a b s) = if inBounds a ∧ a' = a then b else byteAt a' s := by
  unfold romByte
  by_cases ha : inBounds a
  · by_cases h : a' = a
    · subst h; simp [ha]
    · simp [ha, h, byteAt_pokeByte_ne _ _ h]
  · simp only [ha, if_false, false_and]; rfl

theorem romByte_diags (a : Nat) (b : Byte) (s : State) :
    (romByte a b s).diags = s.diags ++ if inBounds a then [] else [romOobEvent a] := by
  unfold romByte
  split <;> simp [romOobEvent]

theorem oobEvents_cons_shift (event : Nat → Diag) (a n : Nat) :
    oobEvents event (a + ·) (n + 1) =
      (if inBounds a then [] else [event a]) ++ oobEvents event (a + 1 + ·) n := by
  unfold oobEvents
  rw [List.range_succ_eq_map]
  have : (List.map (fun x => a + x) (List.map Nat.succ (List.range n))) = (List.range n).map (a + 1 + ·) := by
    rw [List.map_map]
    refine List.map_congr_left fun k _ => ?_
    simp only [Function.comp]
    omega
  rw [List.map_cons, this, List.filter_cons]
  by_cases h : a ≤ 4095
  · simp [h]
  · simp [h]

/-- The ROM copy (R341): each in-range byte is at its address, every other byte as before, one ROM_OOB per dropped byte. -/
theorem romCopy_spec (rom : List Byte) (a : Nat) (s : State) :
    (∀ k (hk : k < rom.length), inBounds (a + k) → byteAt (a + k) (romCopy a rom s) = rom[k]) ∧
    (∀ b, (∀ k < rom.length, inBounds (a + k) → b ≠ a + k) → byteAt b (romCopy a rom s) = byteAt b s) ∧
    (romCopy a rom s).diags = s.diags ++ oobEvents romOobEvent (a + ·) rom.length ∧
    romCopy a rom s = { s with mem := (romCopy a rom s).mem, diags := (romCopy a rom s).diags } := by
  induction rom generalizing a s with
  | nil => exact ⟨by simp, fun _ _ => rfl, by simp [romCopy], rfl⟩
  | cons w rom ih =>
    obtain ⟨hin, hout, hd, hf⟩ := ih (a + 1) (romByte a w s)
    rw [romCopy]
    generalize romCopy (a + 1) rom (romByte a w s) = t at hin hout hd hf
    refine ⟨fun k hk hb => ?_, fun b hb => ?_, ?_, ?_⟩
    · rcases k with _ | k
      · rw [hout _ (fun k _ _ => by omega), byteAt_romByte]
        simp only [Nat.add_zero] at hb ⊢
        simp [hb]
      · have := hin k (by simpa using hk) (by rw [show a + 1 + k = a + (k + 1) by omega]; exact hb)
        rw [show a + (k + 1) = a + 1 + k by omega, this]
        rfl
    · rw [hout b fun k hk hin => by
          have := hb (k + 1) (by simpa using hk) (by omega); omega, byteAt_romByte]
      exact if_neg fun ⟨h1, h2⟩ => hb 0 (by simp) h1 h2
    · rw [hd, romByte_diags, List.length_cons, oobEvents_cons_shift, List.append_assoc]
    · rw [hf]
      apply State.ext <;> simp

theorem romCopy_wf (rom : List Byte) (a : Nat) (s : State) (h : Memory.wf s.params.font s.mem) :
    Memory.wf (romCopy a rom s).params.font (romCopy a rom s).mem := by
  induction rom generalizing a s with
  | nil => exact h
  | cons w rom ih => exact ih _ _ (romByte_wf a w h)

end Sys2Proof.Machine
end

