-- ==== Sys2Proof/Tests/Slice0.lean ====
section
/-! SUPPORT. Tests/Slice0.lean: the model's own checks. Expected values are those of spec/95_test_vectors.md (L1, L2), of the
encoding tables of 30_encoding.md, or worked by hand from the rule named. `witness_<Name>` shows that what Obligations.<Name>
assumes can hold, at the edges of each clause. -/

namespace Sys2Proof.Tests

open Sys2Proof.Machine

/-! ### Small states -/

/-- 95_test_vectors.md's common start state: the reset state, in RUN. -/
def start : State := { State.reset with ctl := .run }

/-- Registers set one by one. -/
def setRegs (rs : List (Nibble × Byte)) (s : State) : State := rs.foldl (fun s r => writeV r.1 r.2 s) s

/-- Bytes put at rising addresses from `a`. -/
def setBytes (a : Nat) (bs : List Byte) (s : State) : State := bs.zipIdx.foldl (fun s b => pokeByte (a + b.2) b.1 s) s

/-- Does one step that fetches `w` in `s` answer a next state that `p` holds of? -/
def runs (w : Nat) (s : State) (p : State → Bool) : Bool :=
  match step (s.withFetchWord 16 w) with
  | .next t => p t
  | _ => false

/-- Does one step of `s` as it stands answer a next state that `p` holds of? -/
def steps (s : State) (p : State → Bool) : Bool :=
  match step s with
  | .next t => p t
  | _ => false

/-- Does executing `i` in `s` answer a next state that `p` holds of? -/
def does (i : Instr) (s : State) (p : State → Bool) : Bool :=
  match exec i s with
  | .next t => p t
  | _ => false

/-- Is the event list exactly these code numbers and addresses? -/
def events (s : State) (l : List (Nat × Option Nat)) : Bool := s.diags.map (fun d => (diagNumber d.code, d.addr)) == l

/-! ### WellFormed: the one check refuses an ill-formed term, and the table refuses one word of every UNKNOWN class (R96) -/

theorem test_jpOff_x_must_agree : (Instr.jpOff 0x234 0x5 0x34).wellFormed = false := by decide
theorem test_jpOff_nn_must_agree : (Instr.jpOff 0x234 0x2 0x35).wellFormed = false := by decide
theorem test_jpOff_agreeing_is_wellFormed : (Instr.jpOff 0x234 0x2 0x34).wellFormed = true := by decide
theorem test_table_refuses_unknown_words :
    [0x0000, 0x0123, 0x00E1, 0x0FFF, 0x5121, 0x8128, 0x812D, 0x812F, 0x912F, 0xE0FF, 0xE09F, 0xF000, 0xF0FF].all
      (fun w => !wordMatches w) = true := by decide
theorem test_decoder_refuses_unknown_words :
    [0x0000, 0x0123, 0x00E1, 0x0FFF, 0x5121, 0x8128, 0x812D, 0x812F, 0x912F, 0xE0FF, 0xE09F, 0xF000, 0xF0FF].all
      (fun w => decodeTableWord 16 w == none) = true := by decide

/-! ### Decoding: one word of every constructor, bit by bit from its format (R93, R95) -/

theorem test_decodes_cls : decode 0b0000_0000_1110_0000 = .known (.cls) := by decide
theorem test_decodes_ret : decode 0b0000_0000_1110_1110 = .known (.ret) := by decide
theorem test_decodes_jp : decode 0b0001_0010_0011_0100 = .known (.jp 0x234) := by decide
theorem test_decodes_call : decode 0b0010_1010_1011_1100 = .known (.call 0xABC) := by decide
theorem test_decodes_seImm : decode 0b0011_0011_0100_0010 = .known (.seImm 0x3 0x42) := by decide
theorem test_decodes_sneImm : decode 0b0100_0011_0100_0010 = .known (.sneImm 0x3 0x42) := by decide
theorem test_decodes_seReg : decode 0b0101_0001_0010_0000 = .known (.seReg 0x1 0x2) := by decide
theorem test_decodes_ldImm : decode 0b0110_1010_1111_1110 = .known (.ldImm 0xA 0xFE) := by decide
theorem test_decodes_addImm : decode 0b0111_0010_0010_0001 = .known (.addImm 0x2 0x21) := by decide
theorem test_decodes_ldReg : decode 0b1000_0011_0001_0000 = .known (.ldReg 0x3 0x1) := by decide
theorem test_decodes_orReg : decode 0b1000_0011_0001_0001 = .known (.orReg 0x3 0x1) := by decide
theorem test_decodes_andReg : decode 0b1000_0011_0001_0010 = .known (.andReg 0x3 0x1) := by decide
theorem test_decodes_xorReg : decode 0b1000_0011_0001_0011 = .known (.xorReg 0x3 0x1) := by decide
theorem test_decodes_addReg : decode 0b1000_0011_0001_0100 = .known (.addReg 0x3 0x1) := by decide
theorem test_decodes_sub : decode 0b1000_0011_0001_0101 = .known (.sub 0x3 0x1) := by decide
theorem test_decodes_shr : decode 0b1000_0011_0001_0110 = .known (.shr 0x3 0x1) := by decide
theorem test_decodes_subn : decode 0b1000_0011_0001_0111 = .known (.subn 0x3 0x1) := by decide
theorem test_decodes_shl : decode 0b1000_0011_0001_1110 = .known (.shl 0x3 0x1) := by decide
theorem test_decodes_sneReg : decode 0b1001_0001_0010_0000 = .known (.sneReg 0x1 0x2) := by decide
theorem test_decodes_ldI : decode 0b1010_0011_0000_0001 = .known (.ldI 0x301) := by decide
theorem test_decodes_jpOff : decode 0b1011_0010_0011_0100 = .known (.jpOff 0x234 0x2 0x34) := by decide
theorem test_decodes_rnd : decode 0b1100_0001_0000_1110 = .known (.rnd 0x1 0x0E) := by decide
theorem test_decodes_drw : decode 0b1101_0001_0010_0101 = .known (.drw 0x1 0x2 0x5) := by decide
theorem test_decodes_skp : decode 0b1110_0011_1001_1110 = .known (.skp 0x3) := by decide
theorem test_decodes_sknp : decode 0b1110_0011_1010_0001 = .known (.sknp 0x3) := by decide
theorem test_decodes_ldVxDt : decode 0b1111_0011_0000_0111 = .known (.ldVxDt 0x3) := by decide
theorem test_decodes_ldVxK : decode 0b1111_0011_0000_1010 = .known (.ldVxK 0x3) := by decide
theorem test_decodes_ldDtVx : decode 0b1111_0011_0001_0101 = .known (.ldDtVx 0x3) := by decide
theorem test_decodes_ldStVx : decode 0b1111_0011_0001_1000 = .known (.ldStVx 0x3) := by decide
theorem test_decodes_addI : decode 0b1111_0011_0001_1110 = .known (.addI 0x3) := by decide
theorem test_decodes_ldF : decode 0b1111_0011_0010_1001 = .known (.ldF 0x3) := by decide
theorem test_decodes_ldB : decode 0b1111_0011_0011_0011 = .known (.ldB 0x3) := by decide
theorem test_decodes_ldMemVx : decode 0b1111_0011_0101_0101 = .known (.ldMemVx 0x3) := by decide
theorem test_decodes_ldVxMem : decode 0b1111_0011_0110_0101 = .known (.ldVxMem 0x3) := by decide
theorem test_table_word_is_big_endian : decodeTableWord 16 0x60AB = some (.ldImm 0x0 0xAB) := by decide
theorem test_bits_above_nbits_are_zero : decodeTableWord 8 0x1260 = none := by decide

/-! ### The cycle -/

/-- L2-C1: an UNKNOWN word is a no-op cycle with its event. -/
theorem test_unknown_word : runs 0x0000 start (fun t => t.pc == 0x202 &&
    t.diags == [{ code := .unknownOpcode, pc := some 0x200, word := some 0x0000, addr := none }]) = true := by decide
/-- L2-C4 and L2-C7: a fetch past the end of memory. -/
theorem test_fetch_oob : steps { start with pc := 0xFFF } (fun t => t.pc == 0x1001 &&
    t.diags == [{ code := .fetchOob, pc := some 0xFFF, word := none, addr := none }]) = true := by decide
theorem test_fetch_oob_wraps : steps { start with pc := 0xFFFF } (fun t => t.pc == 0x0001 && events t [(2, none)]) = true := by
  decide
/-- L2-C5: the last pc that fetches. -/
theorem test_fetch_at_the_end : runs 0x1200 { start with pc := 0xFFE } (fun t => t.pc == 0x200 && events t []) = true := by
  decide
/-- L2-C6: an odd pc. -/
theorem test_fetch_at_odd_pc : runs 0x6055 { start with pc := 0x201 } (fun t => readV 0 t == 0x55 && t.pc == 0x203) = true := by
  decide

/-! ### Display -/

/-- L2-D1. -/
theorem test_cls :
    runs 0x00E0 (setCell 0 0 true (setCell 63 31 true (setRegs [(VF, 0x42)] start)))
      (fun t => !cell 0 0 t && !cell 63 31 t && readV VF t == 0x42 && t.pc == 0x202) = true := by decide
/-- L2-D11. -/
theorem test_drw_collision :
    runs 0xD011 (setCell 0 0 true (setBytes 0x300 [0xC0] { start with i := 0x300 }))
      (fun t => !cell 0 0 t && cell 1 0 t && readV VF t == 1) = true := by decide
/-- L2-D10 and L2-D12 in one: x = F gives the origin column 126 mod 64 = 62, bit 7 is clipped, the second row is out of
bounds. -/
theorem test_drw_clips_vf_origin :
    runs 0xDF12 (setBytes 0xFFF [0x81] (setRegs [(VF, 0x7E)] { start with i := 0xFFF }))
      (fun t => cell 62 0 t && !cell 5 0 t && readV VF t == 0 && events t [(3, some 0x1000)]) = true := by decide
/-! ### Control transfer -/

/-- L2-F5. -/
theorem test_ret :
    runs 0x00EE { start with stack := [0x300, 0x202] } (fun t => t.pc == 0x300 && t.stack == [0x202]) = true := by decide
/-- L2-F4. -/
theorem test_ret_underflow :
    runs 0x00EE start (fun t => t.pc == 0x202 && t.stack == [] && events t [(5, none)]) = true := by decide
/-- L2-F1. -/
theorem test_jp : runs 0x1234 start (fun t => t.pc == 0x234) = true := by decide
/-- L2-F3. -/
theorem test_call : runs 0x2ABC start (fun t => t.pc == 0xABC && t.stack == [0x202]) = true := by decide
/-- L2-F6: sixteen entries fill a depth of sixteen. -/
theorem test_call_overflow :
    runs 0x2300 { start with
      pc := 0x204
      params := { Config.defaultParams with stackDepth := some 16 }
      stack := List.replicate 16 0x202 } (fun t => t.pc == 0x206 && t.stack.length == 16 && events t [(6, none)]) = true := by
  decide
/-- L2-F10. -/
theorem test_jpOff_legacy :
    runs 0xBFFF (setRegs [(0, 0xFF)] { start with quirks := quirksOfPort 0x2 }) (fun t => t.pc == 0x10FE) = true := by decide
/-- L2-F9. -/
theorem test_jpOff_literal : runs 0xB234 (setRegs [(2, 0x10)] start) (fun t => t.pc == 0x046) = true := by decide

/-! ### Skips -/

/-- L2-S1. -/
theorem test_seImm_skips : runs 0x3342 (setRegs [(3, 0x42)] start) (fun t => t.pc == 0x204) = true := by decide
/-- L2-S2. -/
theorem test_seImm_goes_on : runs 0x3342 (setRegs [(3, 0x41)] start) (fun t => t.pc == 0x202) = true := by decide
/-- L2-S3. -/
theorem test_sneImm_skips : runs 0x4342 (setRegs [(3, 0x41)] start) (fun t => t.pc == 0x204) = true := by decide
/-- L2-S4. -/
theorem test_sneImm_goes_on : runs 0x4342 (setRegs [(3, 0x42)] start) (fun t => t.pc == 0x202) = true := by decide
/-- L2-S5. -/
theorem test_seReg_skips : runs 0x5120 (setRegs [(1, 7), (2, 7)] start) (fun t => t.pc == 0x204) = true := by decide
/-- L2-S6. -/
theorem test_seReg_goes_on : runs 0x5120 (setRegs [(1, 7), (2, 8)] start) (fun t => t.pc == 0x202) = true := by decide
/-- L2-S7. -/
theorem test_sneReg_skips : runs 0x9120 (setRegs [(1, 7), (2, 8)] start) (fun t => t.pc == 0x204) = true := by decide
/-- L2-S8. -/
theorem test_sneReg_goes_on : runs 0x9120 (setRegs [(1, 7), (2, 7)] start) (fun t => t.pc == 0x202) = true := by decide

/-! ### Arithmetic and logic -/

/-- L2-A1. -/
theorem test_ldImm : runs 0x6AFF start (fun t => readV 0xA t == 0xFF && t.pc == 0x202) = true := by decide
/-- L2-A2. -/
theorem test_addImm_keeps_vf :
    runs 0x7220 (setRegs [(2, 0xF0), (VF, 0x55)] start) (fun t => readV 2 t == 0x10 && readV VF t == 0x55) = true := by decide
/-- L2-A3. -/
theorem test_addImm_into_vf : runs 0x7F01 (setRegs [(VF, 0xFF)] start) (fun t => readV VF t == 0x00) = true := by decide
/-- L2-A4. -/
theorem test_ldReg :
    runs 0x8010 (setRegs [(1, 0x33)] start) (fun t => readV 0 t == 0x33 && readV 1 t == 0x33) = true := by decide
/-- L2-A5. -/
theorem test_or :
    runs 0x8011 (setRegs [(0, 0x0F), (1, 0xF0), (VF, 1)] start)
      (fun t => readV 0 t == 0xFF && readV VF t == 1) = true := by decide
/-- L2-A6. -/
theorem test_and :
    runs 0x8012 (setRegs [(0, 0x3C), (1, 0x0F), (VF, 1)] start)
      (fun t => readV 0 t == 0x0C && readV VF t == 1) = true := by decide
/-- L2-A7. -/
theorem test_xor :
    runs 0x8013 (setRegs [(0, 0xFF), (1, 0x0F), (VF, 1)] start)
      (fun t => readV 0 t == 0xF0 && readV VF t == 1) = true := by decide
/-- L2-A11. -/
theorem test_addReg_doubles :
    runs 0x8004 (setRegs [(0, 0x80)] start) (fun t => readV 0 t == 0x00 && readV VF t == 1) = true := by decide
/-- L2-A12. -/
theorem test_addReg_into_vf : runs 0x8F14 (setRegs [(VF, 0x10), (1, 0xF5)] start) (fun t => readV VF t == 1) = true := by decide
/-- L2-A14. -/
theorem test_sub_borrows :
    runs 0x8015 (setRegs [(0, 3), (1, 5)] start) (fun t => readV 0 t == 0xFE && readV VF t == 0) = true := by decide
/-- L2-A15. -/
theorem test_sub_equal :
    runs 0x8015 (setRegs [(0, 7), (1, 7)] start) (fun t => readV 0 t == 0x00 && readV VF t == 1) = true := by decide
/-- L2-A18. -/
theorem test_subn :
    runs 0x8017 (setRegs [(0, 3), (1, 5)] start) (fun t => readV 0 t == 0x02 && readV VF t == 1) = true := by decide
/-- L2-A19. -/
theorem test_subn_borrows :
    runs 0x8017 (setRegs [(0, 5), (1, 3)] start) (fun t => readV 0 t == 0xFE && readV VF t == 0) = true := by decide
/-- L2-A21, V1 ignored as in L2-A22. -/
theorem test_shr_ignores_vy :
    runs 0x8016 (setRegs [(0, 0x05), (1, 0x80)] start) (fun t => readV 0 t == 0x02 && readV VF t == 1) = true := by decide
/-- L2-A23. -/
theorem test_shr_quirk :
    runs 0x8016 (setRegs [(1, 0x81)] { start with quirks := quirksOfPort 0x1 })
      (fun t => readV 0 t == 0x40 && readV VF t == 1 && readV 1 t == 0x81) = true := by decide
/-- L2-A26 with y = 1, which R210 ignores. -/
theorem test_shl_ignores_vy :
    runs 0x801E (setRegs [(0, 0x40), (1, 0x81)] start) (fun t => readV 0 t == 0x80 && readV VF t == 0) = true := by decide
/-- L2-A28. -/
theorem test_shl_into_vf : runs 0x8FFE (setRegs [(VF, 0x81)] start) (fun t => readV VF t == 1) = true := by decide
/-- L1-8 and L2-A31: nothing of the draw is left; the draw itself is free, so no value of it can be tested. -/
theorem test_rnd_masked : ∃ t, exec (.rnd 0 0x00) start = .next t ∧ readV 0 t = 0x00 ∧ t.draws = 1 :=
  ⟨_, rfl, BitVec.and_zero, rfl⟩

/-! ### Index register and memory -/

/-- L2-M2. -/
theorem test_ldI : runs 0xAFFF { start with i := 0x1002 } (fun t => t.i == 0xFFF) = true := by decide
/-- L2-M3. -/
theorem test_addI_keeps_vf :
    runs 0xF01E (setRegs [(0, 1), (VF, 0x22)] { start with i := 0x100 })
      (fun t => t.i == 0x101 && readV VF t == 0x22) = true := by decide
/-- L2-M5. -/
theorem test_addI_wraps :
    runs 0xF01E (setRegs [(0, 0x20)] { start with i := 0xFF0 }) (fun t => t.i == 0x010 && readV VF t == 1) = true := by decide
/-- L2-M9. -/
theorem test_ldF : runs 0xF029 (setRegs [(0, 0x1A)] start) (fun t => t.i == 0x032) = true := by decide
/-- L2-M11. -/
theorem test_ldB :
    runs 0xF033 (setRegs [(0, 254)] { start with i := 0x300 })
      (fun t => byteAt 0x300 t == 2 && byteAt 0x301 t == 5 && byteAt 0x302 t == 4) = true := by decide
/-- L2-M16. -/
theorem test_ldB_oob :
    runs 0xF033 (setRegs [(0, 123)] { start with i := 0xFFE })
      (fun t => byteAt 0xFFE t == 1 && byteAt 0xFFF t == 2 && events t [(4, some 0x1000)]) = true := by decide
/-- L2-M17. -/
theorem test_ldMemVx :
    runs 0xF155 (setRegs [(0, 1), (1, 2)] { start with i := 0x300 })
      (fun t => byteAt 0x300 t == 1 && byteAt 0x301 t == 2 && t.i == 0x300) = true := by decide
/-- L2-M21. -/
theorem test_ldMemVx_quirk_oob :
    runs 0xF355 (setRegs [(0, 0x0A), (1, 0x0B), (2, 0x0C)] { start with i := 0xFFE, quirks := quirksOfPort 0x4 })
      (fun t => byteAt 0xFFF t == 0x0B && t.i == 0x1002 && events t [(4, some 0x1000), (4, some 0x1001)]) = true := by decide
/-- L2-M23. -/
theorem test_ldVxMem_quirk :
    runs 0xF265 (setBytes 0x300 [2, 5, 4] { start with i := 0x300, quirks := quirksOfPort 0x4 })
      (fun t => readV 0 t == 2 && readV 1 t == 5 && readV 2 t == 4 && t.i == 0x303) = true := by decide
/-- L2-M25. -/
theorem test_ldVxMem_oob :
    runs 0xF165 (setBytes 0xFFF [0x77] (setRegs [(0, 0x11), (1, 0x11)] { start with i := 0xFFF }))
      (fun t => readV 0 t == 0x77 && readV 1 t == 0x11 && events t [(3, some 0x1000)]) = true := by decide

/-! ### Keyboard and timers -/

/-- L2-K1. -/
theorem test_skp_pressed : runs 0xE09E (setKeySlot 5 true (setRegs [(0, 5)] start)) (fun t => t.pc == 0x204) = true := by decide
/-- L2-K3. -/
theorem test_skp_out_of_range :
    runs 0xE09E (setKeySlot 5 true (setRegs [(0, 0x15)] start)) (fun t => t.pc == 0x202) = true := by decide
/-- L2-K6. -/
theorem test_sknp_pressed :
    runs 0xE0A1 (setKeySlot 5 true (setRegs [(0, 5)] start)) (fun t => t.pc == 0x202) = true := by decide
/-- L2-K4 and L2-K6. -/
theorem test_sknp_mask :
    runs 0xE0A1 (setKeySlot 5 true (setRegs [(0, 0x15)] { start with params := { Config.defaultParams with keyOor := .mask } }))
      (fun t => t.pc == 0x202) = true := by decide
/-- L2-K8. -/
theorem test_ldVxDt : runs 0xF107 { start with dt := 0x3C } (fun t => readV 1 t == 0x3C) = true := by decide
/-- L2-K9. -/
theorem test_ldVxK_lowest :
    runs 0xF30A (setKeySlot 9 true (setKeySlot 5 true start)) (fun t => readV 3 t == 5 && t.pc == 0x202) = true := by decide
/-- L2-K10. -/
theorem test_ldVxK_waits : runs 0xF30A start (fun t => readV 3 t == 0 && t.pc == 0x200) = true := by decide
/-- L2-K13. -/
theorem test_ldDtVx : runs 0xF015 (setRegs [(0, 0x3C)] start) (fun t => t.dt == 0x3C && t.st == 0) = true := by decide
/-- L2-K14. -/
theorem test_ldStVx : runs 0xF018 (setRegs [(0, 0x05)] start) (fun t => t.st == 0x05 && t.dt == 0) = true := by decide

/-! ### Other agents -/

/-- L2-K15. -/
theorem test_tick : steps { start with schedule := [.tick], dt := 2, st := 1 } (fun t => t.dt == 1 && t.st == 0) = true := by decide
/-- L2-K16. -/
theorem test_tick_at_zero : steps { start with schedule := [.tick] } (fun t => t.dt == 0 && t.st == 0) = true := by decide
/-- L2-K18: Step in PAUSE. -/
theorem test_step_in_pause :
    steps { start.withFetchWord 16 0x7001 with ctl := .pause, schedule := [.stepOnce], dt := 2 }
      (fun t => readV 0 t == 1 && t.pc == 0x202 && t.dt == 2 && t.ctl == .pause) = true := by decide
/-- L2-R1: Reset. -/
theorem test_reset_keeps_quirks :
    steps { setRegs [(3, 9)] start with quirks := quirksOfPort 0x5, schedule := [.reset], mem := [(0, 1)] }
      (fun t => t.ctl == .loading && readV 3 t == 0 && byteAt 0 t == 0xF0 && t.quirks == quirksOfPort 0x5) = true := by decide
/-- L2-R1: the ROM copy. -/
theorem test_rom_copy :
    steps { start with ctl := .loading, schedule := [.romDeliver [0x12, 0x00]] }
      (fun t => t.ctl == .idle && byteAt 0x200 t == 0x12 && byteAt 0x201 t == 0x00) = true := by decide
/-- L2-R2: the byte that would go to 0x1000. -/
theorem test_rom_byte_oob : (romByte 0x1000 0xAA start).mem = [] ∧ (romByte 0x1000 0xAA start).diags = [romOobEvent 0x1000] := by
  decide

/-! ### Witnesses: what the statements assume can hold -/

theorem witness_DecodeInvertsEncode : (Instr.jpOff 0xFFF 0xF 0xFF).wellFormed = true := by decide
theorem witness_EncodeInvertsDecode : decode 0xB234 = .known (.jpOff 0x234 0x2 0x34) := by decide
theorem witness_DecoderAgreesWithTheOpcodeTable :
    wordMatches 0x00E1 = false ∧ wordMatches 0x00E0 = true ∧ Instr.cls.row ∈ opcodeRows ∧ Instr.cls.row.accepts 0x00E0 = true := by
  decide

/-- The executor's turn by default, by a turn, and by Step. -/
theorem witness_executorTurn :
    executorTurn start start ∧ executorTurn { start with schedule := [.cycle] } start ∧
    executorTurn { State.reset with schedule := [.stepOnce] } State.reset ∧
    executorTurn { State.reset with ctl := .pause, schedule := [.stepOnce] } { State.reset with ctl := .pause } :=
  ⟨.inl ⟨rfl, rfl, rfl⟩, .inr (.inl ⟨[], rfl, rfl, rfl⟩), .inr (.inr ⟨[], rfl, .inl rfl, rfl⟩),
   .inr (.inr ⟨[], rfl, .inr rfl, rfl⟩)⟩

/-- A placed word is fetched on the executor's turn. -/
theorem turn_withFetchWord (s : State) (n w : Nat) : executorTurn (s.withFetchWord n w) (s.withFetchWord n w) :=
  .inl ⟨rfl, rfl, rfl⟩

theorem witness_StepRunsTheDecodedInstruction :
    let s := { start with pc := 0xFFE }.withFetchWord 16 0x6A0B
    executorTurn s s ∧ s.pc.toNat ≤ 0xFFE ∧ decode (byteAt s.pc.toNat s ++ byteAt (s.pc.toNat + 1) s) = .known (.ldImm 0xA 0x0B) ∧
    exec (.ldImm 0xA 0x0B) { s with advance := true } = .next (writeV 0xA 0x0B { s with advance := true }) :=
  ⟨turn_withFetchWord _ _ _, by decide, by decide, rfl⟩

theorem witness_FetchOutOfBoundsIsANoOpCycle :
    (let s := { start with pc := 0xFFF }; executorTurn s s ∧ s.pc.toNat > 0xFFE) ∧
    (let s := { start with pc := 0xFFFF }; executorTurn s s ∧ s.pc.toNat > 0xFFE) :=
  ⟨⟨.inl ⟨rfl, rfl, rfl⟩, by decide⟩, ⟨.inl ⟨rfl, rfl, rfl⟩, by decide⟩⟩

theorem witness_UnknownWordsAreNoOpCycles :
    let s := { start with pc := 0xFFE }.withFetchWord 16 0x0FFF
    executorTurn s s ∧ s.pc.toNat ≤ 0xFFE ∧ decode (wordAtPc s) = .unknown 0x0FFF :=
  ⟨turn_withFetchWord _ _ _, by decide, by decide⟩

/-- One word on either side of each clause of R96. -/
theorem witness_UnknownWordsAreNoOpCycles_classes :
    [0x0FFF, 0x5001, 0x900F, 0x8008, 0x800F, 0xE000, 0xF006].all (fun w => decode w == .unknown w) ∧
    [0x00E0, 0x1000, 0x5000, 0x9000, 0x8007, 0x800E, 0xE09E, 0xF007].all (fun w => decode w != .unknown w) := by decide

theorem witness_StoredWordIsTheNextFetched :
    let s := { start with pc := 0xFFC, i := 0xFFE }.withFetchWord 16 0xF155
    executorTurn s s ∧ wordAtPc s = 0xF#4 ++ (1 : Nibble) ++ 0x55#8 ∧ 1 ≤ (1 : Nibble).toNat ∧ s.pc.toNat + 3 ≤ 0xFFF ∧
    s.i.toNat = s.pc.toNat + 2 :=
  ⟨turn_withFetchWord _ _ _, by decide, by decide, by decide, by decide⟩

theorem witness_ClsClearsTheGrid :
    let s := start.withFetchWord 16 0x00E0
    executorTurn s s ∧ s.pc.toNat ≤ 0xFFE ∧ wordAtPc s = 0x00E0 :=
  ⟨turn_withFetchWord _ _ _, by decide, by decide⟩

/-- A one-byte sprite at 0x300 whose bit 7 alone is set. -/
def dot : State := setBytes 0x300 [0x80] { start with i := 0x300 }

/-- `dot`'s sprite covers cell (0, 0), and with the wrap quirk a sprite at (63, 31) covers it with its second column. -/
theorem witness_spriteCovers :
    spriteCovers dot 0 0 1 0 0 ∧
    spriteCovers (setBytes 0x300 [0x00, 0x40] { dot with quirks := quirksOfPort 0x8 }) 63 31 2 0 0 :=
  ⟨⟨0, by decide, 0, by decide, by decide, by decide, by decide⟩, ⟨1, by decide, 1, by decide, by decide, by decide, by decide⟩⟩

/-- A hit, and a draw that cannot hit. -/
theorem witness_DrwXorsItsSprite :
    (spriteCovers (setCell 0 0 true dot) ((readV 0 dot).toNat % 64) ((readV 0 dot).toNat % 32) (1 : Nibble).toNat 0 0 ∧
      cell 0 0 (setCell 0 0 true dot) = true) ∧
    (¬ ∃ X Y, spriteCovers dot ((readV 0 dot).toNat % 64) ((readV 0 dot).toNat % 32) (1 : Nibble).toNat X Y ∧
      cell X Y dot = true) :=
  ⟨⟨⟨0, by decide, 0, by decide, by decide, by decide, by decide⟩, by decide⟩,
   fun ⟨X, Y, _, h⟩ => by simp [cell, dot, setBytes, pokeByte, start, State.reset, State.setMem] at h⟩

theorem witness_DrawingTwiceRestoresTheGrid :
    (0x0 : Nibble) ≠ VF ∧ (0xE : Nibble) ≠ VF ∧
    cell 0 0 dot = false ∧ does (.drw 0x0 0xE 1) dot (fun t => cell 0 0 t) = true := by decide

theorem witness_RetPopsTheReturnAddress :
    ({ start with stack := [0x300, 0x202] } : State).stack = 0x300 :: [0x202] ∧ start.stack = [] := ⟨rfl, rfl⟩

/-- Unbounded, one entry short of the depth, and full. -/
theorem witness_CallPushesTheReturnAddress :
    let bounded : State := { start with params := { Config.defaultParams with stackDepth := some 16 } }
    start.params.stackDepth ≠ some start.stack.length ∧
    ({ bounded with stack := List.replicate 15 0x202 }).params.stackDepth ≠ some (List.replicate 15 (0x202 : Word)).length ∧
    ({ bounded with stack := List.replicate 16 0x202 }).params.stackDepth = some (List.replicate 16 (0x202 : Word)).length := by
  decide

theorem witness_JpOffFollowsItsQuirk :
    ({ start with quirks := quirksOfPort 0x2 } : State).quirks.jumpWithOffsetLegacy = true ∧
    start.quirks.jumpWithOffsetLegacy = false := by decide

theorem witness_SkipMovesThePcByFour :
    let s := { start with pc := 0xFFE }.withFetchWord 16 0x3000
    executorTurn s s ∧ s.pc.toNat ≤ 0xFFE ∧ decode (wordAtPc s) = .known (.seImm 0 0) ∧ readV 0 s = 0x00 :=
  ⟨turn_withFetchWord _ _ _, by decide, by decide, by decide⟩

/-- The condition of each kind of skip, holding and not holding. -/
theorem witness_SkipMovesThePcByFour_conditions :
    readV 0 start = 0x00 ∧ readV 0 start ≠ 0x01 ∧ readV 0 start = readV 1 start ∧
    readV 0 start ≠ readV 1 (setRegs [(1, 1)] start) ∧
    keyDown (readV 0 start) (setKeySlot 0 true start) = true ∧ keyDown (readV 0 start) start = false := by decide

/-- A destination other than VF: what AddReg, Sub, Subn, Shr and Shl assume for the result. -/
theorem witness_AddRegSetsTheCarry : (0xE : Nibble) ≠ VF := by decide
theorem witness_SubtractionsSetNoBorrow : (0xE : Nibble) ≠ VF := by decide
theorem witness_ShrShiftsOutBitZero : (0xE : Nibble) ≠ VF := by decide
theorem witness_ShlShiftsOutBitSeven : (0xE : Nibble) ≠ VF := by decide

/-- The last sum that stays and the first that wraps. -/
theorem witness_AddIWrapsPastTheAddressSpace :
    (let s := setRegs [(0, 1)] { start with i := 0xFFE }; s.i.toNat + (readV 0 s).toNat ≤ 0xFFF) ∧
    (let s := setRegs [(0, 1)] { start with i := 0xFFF }; s.i.toNat + (readV 0 s).toNat > 0xFFF) := by decide

/-- The last I whose three bytes are all in bounds, and bytes left alone there. -/
theorem witness_LdBStoresThreeDigits :
    let s := { start with i := 0xFFD }
    inBounds s.i.toNat ∧ inBounds (s.i.toNat + 1) ∧ inBounds (s.i.toNat + 2) ∧
    (∀ k < 3, inBounds (s.i.toNat + k) → 0xFFC ≠ s.i.toNat + k) := by decide

/-- A byte in bounds at the edge, one out of bounds, a byte that is left alone, and the quirk's wrap of I. -/
theorem witness_LdMemVxStoresTheRegisters :
    let s := { start with i := 0xFFF }
    let q := { start with i := 0xFFFF, quirks := quirksOfPort 0x4 }
    inBounds (transferAddress s 0) ∧ ¬ inBounds (transferAddress s 1) ∧ ¬ inBounds (transferAddress q 0) ∧
    transferAddress q 1 = 0 ∧ inBounds (transferAddress q 1) ∧
    (∀ k ≤ (1 : Nibble).toNat, inBounds (transferAddress s k) → 0xFFE ≠ transferAddress s k) := by decide

theorem witness_LdVxMemLoadsTheRegisters :
    let s := { start with i := 0xFFF }
    (0x0 : Nibble).toNat ≤ (1 : Nibble).toNat ∧ inBounds (transferAddress s (0x0 : Nibble).toNat) ∧
    (0x1 : Nibble).toNat ≤ (1 : Nibble).toNat ∧ ¬ inBounds (transferAddress s (0x1 : Nibble).toNat) ∧
    (1 : Nibble).toNat < (0x2 : Nibble).toNat := by decide

theorem witness_StoreThenLoadRestoresTheRegisters :
    ({ start with i := 0xFF0 } : State).i.toNat + (0xF : Nibble).toNat ≤ 0xFFF := by decide

/-- Indices 15 and 16, and both settings of KEY_OOR. -/
theorem witness_KeySkipsFollowTheKey :
    (let s := setRegs [(0, 15)] start; (readV 0 s).toNat ≤ 0xF) ∧
    (let s := setRegs [(0, 16)] start; (readV 0 s).toNat > 0xF ∧ s.params.keyOor = .released) ∧
    (let s := setRegs [(0, 16)] { start with params := { Config.defaultParams with keyOor := .mask } }
     (readV 0 s).toNat > 0xF ∧ s.params.keyOor = .mask) := by decide

/-- Key 15 alone, and no key. -/
theorem witness_LdVxKTakesTheLowestKey :
    (let s := setKeySlot 15 true start
     keySlot 15 s = true ∧ ∀ j : Nibble, j.toNat < (15 : Nibble).toNat → keySlot j s = false) ∧
    (∀ k : Nibble, keySlot k start = false) := by decide

theorem witness_WaitingForAKeyRunsAgain :
    let s := start.withFetchWord 16 0xFF0A
    executorTurn s s ∧ s.pc.toNat ≤ 0xFFE ∧ wordAtPc s = 0xF#4 ++ (0xF : Nibble) ++ 0x0A#8 ∧ ∀ k : Nibble, keySlot k s = false :=
  ⟨turn_withFetchWord _ _ _, by decide, by decide, by decide⟩

theorem witness_TimerTickCountsDown :
    (let s : State := { start with schedule := .tick :: [.cycle] }; s.schedule = .tick :: [.cycle] ∧ s.ctl = .run) ∧
    (let s : State := { State.reset with schedule := .tick :: [] }; s.schedule = .tick :: [] ∧ s.ctl ≠ .run) := by decide

/-- Each clause: a control state that takes the turn, and one that does not. -/
theorem witness_ControlStateMachine :
    ({ State.reset with schedule := [.start] } : State).schedule = .start :: [] ∧
    ({ start with schedule := [.pauseResume] } : State).schedule = .pauseResume :: [] ∧
    (let s : State := { State.reset with ctl := .pause, schedule := [.tick] }; s.schedule = .tick :: [] ∧ s.ctl ≠ .run) ∧
    (let s : State := { State.reset with ctl := .pause, schedule := [.cycle] }; s.schedule = .cycle :: [] ∧ s.ctl ≠ .run) ∧
    (let s : State := { start with schedule := [.stepOnce] }; s.schedule = .stepOnce :: [] ∧ s.ctl = .run) ∧
    (let s : State := { State.reset with ctl := .loading, schedule := [.stepOnce] }
     s.schedule = .stepOnce :: [] ∧ s.ctl = .loading) ∧
    (let s : State := { State.reset with schedule := [.romDeliver [1]] }; s.schedule = .romDeliver [1] :: [] ∧ s.ctl ≠ .loading) ∧
    (State.reset.schedule = [] ∧ State.reset.ctl ≠ .run) := by decide

theorem witness_StepOnceIsOneCycle :
    (let s : State := { State.reset with schedule := [.stepOnce] }; s.schedule = .stepOnce :: [] ∧ s.ctl = .idle) ∧
    (let s : State := { State.reset with ctl := .pause, schedule := [.stepOnce] }
     s.schedule = .stepOnce :: [] ∧ s.ctl = .pause) := by decide

theorem witness_PauseFreezesTheMachine :
    let s : State := { State.reset with ctl := .pause }
    s.ctl = .pause ∧ s.schedule = [] ∧ ({ s with schedule := [.tick] } : State).schedule = .tick :: [] ∧
    Turn.tick ≠ .pauseResume ∧ Turn.tick ≠ .stepOnce ∧ Turn.tick ≠ .reset ∧
    (∀ k pressed, Turn.tick ≠ .keyWrite k pressed) ∧
    ({ s with schedule := [.keyWrite 15 true] } : State).schedule = .keyWrite 15 true :: [] := by
  refine ⟨rfl, rfl, rfl, by decide, by decide, by decide, nofun, rfl⟩

theorem witness_KeyWriteSetsOneSlot :
    ({ start with schedule := [.keyWrite 0 true] } : State).schedule = .keyWrite 0 true :: [] ∧ (15 : Nibble) ≠ 0 := by decide

theorem witness_ConfigurationIsWrittenInIdle :
    (let s : State := { State.reset with schedule := [.quirksWrite 0xF] }; s.schedule = .quirksWrite 0xF :: [] ∧ s.ctl = .idle) ∧
    (let s : State := { State.reset with schedule := [.batchSizeWrite 8] }
     s.schedule = .batchSizeWrite 8 :: [] ∧ s.ctl = .idle) ∧
    (let s : State := { State.reset with schedule := [.timerHzWrite 50] }
     s.schedule = .timerHzWrite 50 :: [] ∧ s.ctl = .idle) ∧
    (let s : State := { start with schedule := [.quirksWrite 0xF] }; s.schedule = .quirksWrite 0xF :: [] ∧ s.ctl ≠ .idle) := by
  decide

theorem witness_ResetSetsEveryPieceOfState :
    ({ start with schedule := .reset :: [] } : State).schedule = .reset :: [] ∧ 15 < 16 ∧ 4 < 5 ∧ 80 ≤ 80 := by decide

/-- A ROM that fills memory to its last byte and one byte more. -/
theorem witness_RomCopyFillsProgramMemory :
    let rom : List Byte := List.replicate 3585 0xAA
    let s : State := { State.reset with ctl := .loading, schedule := [.romDeliver rom] }
    s.schedule = .romDeliver rom :: [] ∧ s.ctl = .loading ∧
    (3583 < rom.length ∧ 0x200 + 3583 ≤ 0xFFF) ∧ ¬ 0x200 + 3584 ≤ 0xFFF :=
  ⟨rfl, rfl, ⟨by rw [List.length_replicate]; decide, by decide⟩, by decide⟩

theorem witness_PowerOnIsResetWithEmptyRom :
    ({ start with schedule := [.reset, .romDeliver [], .start] } : State).schedule = .reset :: .romDeliver [] :: [.start] := rfl

/-- A step that a state of the invariant takes: it stores, and calls. -/
theorem witness_StepKeepsTheInvariant :
    State.Inv (start.withFetchWord 16 0x2ABC) ∧ ∃ t, step (start.withFetchWord 16 0x2ABC) = .next t := ⟨by decide, _, rfl⟩

theorem witness_StepAppendsWellFormedEvents : ∃ t, step (start.withFetchWord 16 0x0000) = .next t ∧ t.diags ≠ [] :=
  ⟨_, rfl, by decide⟩

theorem witness_InstructionsLeaveHostStateAlone :
    (∃ t, exec .cls start = .next t) ∧ ∀ (x : Nibble) (nn : Byte), Instr.cls ≠ .rnd x nn := ⟨⟨_, rfl⟩, nofun⟩

theorem witness_OnlyCallAndRetReachTheStack :
    (∃ t, exec .cls start = .next t) ∧ (∀ nnn, Instr.cls ≠ .call nnn) ∧ Instr.cls ≠ .ret :=
  ⟨⟨_, rfl⟩, nofun, nofun⟩

theorem witness_OnlyClsDrwAndResetChangeTheGrid :
    ∃ t, step ((setCell 0 0 true start).withFetchWord 16 0x00E0) = .next t ∧
      t.fb ≠ ((setCell 0 0 true start).withFetchWord 16 0x00E0).fb := ⟨_, rfl, by decide⟩

theorem witness_OnlyStoresAndResetChangeMemory :
    let s := (setRegs [(0, 9)] { start with i := 0x300 }).withFetchWord 16 0xF055
    ∃ t, step s = .next t ∧ byteAt 0x300 t ≠ byteAt 0x300 s := ⟨_, rfl, by decide⟩

theorem witness_OnlyDestinationRegistersChange :
    (∃ t, exec (.ldVxMem 0xE) start = .next t) ∧ ¬ mayWriteReg (.ldVxMem 0xE) VF := ⟨⟨_, rfl⟩, by simp [mayWriteReg]⟩

theorem witness_IndexAndTimersHaveTheirWriters : ∃ t, exec (.ldMemVx 0) start = .next t ∧ t.i = start.i := ⟨_, rfl, by decide⟩

theorem witness_ExactlyTheJumpsSuppressTheAdvance :
    start.advance = true ∧ (∃ t, exec .ret start = .next t ∧ t.advance = true) ∧
    (∃ t, exec (.ldVxK 0) start = .next t ∧ t.advance = false) := ⟨rfl, ⟨_, rfl, rfl⟩, ⟨_, rfl, rfl⟩⟩

theorem witness_SoundTimerAndEventsAreNeverRead : ∃ t, exec (.ldStVx 0) start = .next t := ⟨_, rfl⟩

theorem witness_SelfJumpChangesNothing :
    let s := { start with pc := 0xFFE }.withFetchWord 16 0x1FFE
    executorTurn s s ∧ atSelfJump s := ⟨turn_withFetchWord _ _ _, by decide⟩

end Sys2Proof.Tests
end

/-! Proofs of the family 10_state.md. What every instruction may write (`footprint`), which words are UNKNOWN, what a step
can do (`StepKind`), and what no instruction reads (`swapUnread`) are each said once; the obligations follow. -/

namespace Sys2Proof.Machine

/-! ### The footprint of an instruction -/

/-- Which fields an instruction may write: in `t` every other field is as in `s` (10_state.md R21–R36). -/
def footprint (s t : State) : Instr → Prop
  | .cls => t = { s with fb := t.fb }
  | .ret | .call _ => t = { s with pc := t.pc, stack := t.stack, advance := t.advance, diags := t.diags }
  | .jp _ | .jpOff _ _ _ => t = { s with pc := t.pc, advance := t.advance }
  | .seImm _ _ | .sneImm _ _ | .seReg _ _ | .sneReg _ _ | .skp _ | .sknp _ => t = { s with pc := t.pc }
  | .ldImm _ _ | .addImm _ _ | .ldReg _ _ | .orReg _ _ | .andReg _ _ | .xorReg _ _ => t = { s with v := t.v }
  | .addReg _ _ | .sub _ _ | .shr _ _ | .subn _ _ | .shl _ _ | .ldVxDt _ => t = { s with v := t.v }
  | .rnd _ _ => t = { s with v := t.v, draws := t.draws }
  | .drw _ _ _ => t = { s with v := t.v, fb := t.fb, diags := t.diags }
  | .ldVxK _ => t = { s with v := t.v, advance := t.advance }
  | .ldDtVx _ => t = { s with dt := t.dt }
  | .ldStVx _ => t = { s with st := t.st }
  | .ldI _ | .ldF _ => t = { s with i := t.i }
  | .addI _ => t = { s with v := t.v, i := t.i }
  | .ldB _ => t = { s with mem := t.mem, diags := t.diags }
  | .ldMemVx _ => t = { s with mem := t.mem, i := t.i, diags := t.diags }
  | .ldVxMem _ => t = { s with v := t.v, i := t.i, diags := t.diags }

theorem skipIf_frame (c : Bool) (s : State) : skipIf c s = { s with pc := (skipIf c s).pc } := by
  cases c <;> rfl

/-- A result and its flag, written after the shift source is chosen, touch the register file only. -/
theorem writeFlag_shiftSource_frame (x y : Nibble) (flag b : Byte) (s : State) :
    let t := writeFlag flag (writeV x b (shiftSource x y s))
    t = { s with v := t.v } := by
  intro t
  apply State.ext <;> simp [t]

theorem memWrite_frame (a : Nat) (b : Byte) (s : State) :
    memWrite a b s = { s with mem := (memWrite a b s).mem, diags := (memWrite a b s).diags } := by
  unfold memWrite
  split <;> rfl

theorem exec_ret_cases {s t : State} (h : exec .ret s = .next t) :
    (s.stack = [] ∧ t = raiseHere .stackUnderflow none none s) ∨
    ∃ target rest, s.stack = target :: rest ∧ t = jump target (s.setStack rest) := by
  change execRet s = .next t at h
  unfold execRet at h
  split at h
  · next hs => exact .inl ⟨hs, (Host.Outcome.next.inj h).symm⟩
  · next target rest hs => exact .inr ⟨target, rest, hs, (Host.Outcome.next.inj h).symm⟩

theorem exec_call_cases {nnn : Addr12} {s t : State} (h : exec (.call nnn) s = .next t) :
    (stackFull s = true ∧ t = raiseHere .stackOverflow none none s) ∨
    (stackFull s = false ∧ t = jump (zextNNN nnn) (push (s.pc + 2) s)) := by
  change execCall nnn s = .next t at h
  unfold execCall at h
  split at h
  · next hs => exact .inl ⟨hs, (Host.Outcome.next.inj h).symm⟩
  · next hs => exact .inr ⟨by simpa using hs, (Host.Outcome.next.inj h).symm⟩

theorem exec_ldVxK_cases {x : Nibble} {s t : State} (h : exec (.ldVxK x) s = .next t) :
    (∃ k, lowestKey s = some k ∧ t = writeV x (BitVec.ofNat 8 k) s) ∨ (lowestKey s = none ∧ t = hold s) := by
  change execLdVxK x s = .next t at h
  unfold execLdVxK at h
  split at h
  · next k hk => exact .inl ⟨k, hk, (Host.Outcome.next.inj h).symm⟩
  · next hk => exact .inr ⟨hk, (Host.Outcome.next.inj h).symm⟩

theorem exec_addI_cases {x : Nibble} {s t : State} (h : exec (.addI x) s = .next t) :
    (0xFFF < s.i.toNat + (readV x s).toNat ∧
      t = writeFlag 1 (s.setI (BitVec.ofNat 16 ((s.i.toNat + (readV x s).toNat) % 4096)))) ∨
    (s.i.toNat + (readV x s).toNat ≤ 0xFFF ∧ t = s.setI (BitVec.ofNat 16 (s.i.toNat + (readV x s).toNat))) := by
  change (if _ then _ else _) = _ at h
  split at h
  · next hs => exact .inl ⟨hs, (Host.Outcome.next.inj h).symm⟩
  · next hs => exact .inr ⟨Nat.not_lt.mp hs, (Host.Outcome.next.inj h).symm⟩

/-- I, the events and the frame of Fx55 (45_index_memory.md R234). -/
theorem exec_ldMemVx_spec {x : Nibble} {s t : State} (h : exec (.ldMemVx x) s = .next t) :
    t.i = indexAfter s (x.toNat + 1) ∧
    t.diags = s.diags ++ oobEvents (writeOobEvent s.pc) (transferAddress s) (x.toNat + 1) ∧
    t = { s with mem := t.mem, i := t.i, diags := t.diags } := by
  obtain rfl := Host.Outcome.next.inj h
  obtain ⟨-, -, hframe⟩ := storeV_fold s (x.toNat + 1) x.isLt
  exact hframe

/-- The registers, I, the events and the frame of Fx65 (R235). -/
theorem exec_ldVxMem_spec {x : Nibble} {s t : State} (h : exec (.ldVxMem x) s = .next t) :
    (∀ r : Nibble, x.toNat < r.toNat → readV r t = readV r s) ∧
    t.i = indexAfter s (x.toNat + 1) ∧
    t.diags = s.diags ++ oobEvents (readOobEvent s.pc) (transferAddress s) (x.toNat + 1) ∧
    t = { s with v := t.v, i := t.i, diags := t.diags } := by
  obtain rfl := Host.Outcome.next.inj h
  obtain ⟨-, hframe⟩ := loadV_fold s (x.toNat + 1) x.isLt
  exact hframe

/-- The registers, the events and the frame of Dxyn (41_display.md R141, R142). -/
theorem exec_drw_spec {x y n : Nibble} {s t : State} (h : exec (.drw x y n) s = .next t) :
    (∀ r, r ≠ VF → readV r t = readV r s) ∧
    t.diags = s.diags ++ oobEvents (readOobEvent s.pc) (s.i.toNat + ·) n.toNat ∧
    t = { s with v := t.v, fb := t.fb, diags := t.diags } := by
  obtain rfl := Host.Outcome.next.inj h
  obtain ⟨hpaints, hdiags⟩ := drawRows_spec ((readV x s).toNat % 64) ((readV y s).toNat % 32) (writeFlag 0 s) n.toNat
    n.isLt.le
  exact ⟨fun r hr => (hpaints.regs r hr).trans (readV_writeFlag_ne 0 s hr), hdiags, hpaints.frame⟩

/-- Every instruction keeps to its footprint. -/
theorem exec_footprint {i : Instr} {s t : State} (h : exec i s = .next t) : footprint s t i := by
  cases i with
  | ret => obtain ⟨-, rfl⟩ | ⟨_, _, -, rfl⟩ := exec_ret_cases h <;> rfl
  | call nnn => obtain ⟨-, rfl⟩ | ⟨-, rfl⟩ := exec_call_cases h <;> rfl
  | ldVxK x => obtain ⟨_, -, rfl⟩ | ⟨-, rfl⟩ := exec_ldVxK_cases h <;> rfl
  | addI x => obtain ⟨-, rfl⟩ | ⟨-, rfl⟩ := exec_addI_cases h <;> rfl
  | seImm | sneImm | seReg | sneReg | skp | sknp => obtain rfl := Host.Outcome.next.inj h; exact skipIf_frame _ s
  | shr x y | shl x y => obtain rfl := Host.Outcome.next.inj h; exact writeFlag_shiftSource_frame x y _ _ s
  | ldB x =>
    obtain rfl := Host.Outcome.next.inj h
    show memWrite _ _ _ = _
    rw [memWrite_frame _ _ (memWrite _ _ (memWrite _ _ s)), memWrite_frame _ _ (memWrite _ _ s), memWrite_frame _ _ s]
  | drw x y n => obtain ⟨-, -, hframe⟩ := exec_drw_spec h; exact hframe
  | ldMemVx x => obtain ⟨-, -, hframe⟩ := exec_ldMemVx_spec h; exact hframe
  | ldVxMem x => obtain ⟨-, -, -, hframe⟩ := exec_ldVxMem_spec h; exact hframe
  | cls | jp | jpOff | ldImm | addImm | ldReg | orReg | andReg | xorReg | addReg | sub | subn | rnd | ldI | ldVxDt | ldDtVx
  | ldStVx | ldF => obtain rfl := Host.Outcome.next.inj h; rfl

/-- No instruction writes KEY, QUIRKS, ctl, the parameters or the schedule. -/
theorem exec_frame {i : Instr} {s t : State} (h : exec i s = .next t) :
    t = { s with v := t.v, i := t.i, pc := t.pc, stack := t.stack, dt := t.dt, st := t.st, fb := t.fb, mem := t.mem,
                 advance := t.advance, diags := t.diags, draws := t.draws } := by
  have hf := exec_footprint h
  cases i <;> (rw [footprint] at hf; rw [hf])

theorem exec_params {i : Instr} {s t : State} (h : exec i s = .next t) : t.params = s.params :=
  (congrArg State.params (exec_frame h) :)

theorem exec_mem {i : Instr} {s t : State} (h : exec i s = .next t) (hB : ∀ x, i ≠ .ldB x) (hM : ∀ x, i ≠ .ldMemVx x) :
    t.mem = s.mem := by
  cases i with
  | ldB x => exact absurd rfl (hB x)
  | ldMemVx x => exact absurd rfl (hM x)
  | _ => exact (congrArg State.mem (exec_footprint h) :)

theorem exec_fb {i : Instr} {s t : State} (h : exec i s = .next t) (hcls : i ≠ .cls) (hdrw : ∀ x y n, i ≠ .drw x y n) :
    t.fb = s.fb := by
  cases i with
  | cls => exact absurd rfl hcls
  | drw x y n => exact absurd rfl (hdrw x y n)
  | _ => exact (congrArg State.fb (exec_footprint h) :)

theorem exec_draws {i : Instr} {s t : State} (h : exec i s = .next t) (hrnd : ∀ x nn, i ≠ .rnd x nn) :
    t.draws = s.draws := by
  cases i with
  | rnd x nn => exact absurd rfl (hrnd x nn)
  | _ => exact (congrArg State.draws (exec_footprint h) :)

theorem exec_stack {i : Instr} {s t : State} (h : exec i s = .next t) (hcall : ∀ nnn, i ≠ .call nnn) (hret : i ≠ .ret) :
    t.stack = s.stack := by
  cases i with
  | call nnn => exact absurd rfl (hcall nnn)
  | ret => exact absurd rfl hret
  | _ => exact (congrArg State.stack (exec_footprint h) :)

/-- Settles O51, from the frame that all instructions share. -/
theorem instructionsLeaveHostStateAlone : Obligations.InstructionsLeaveHostStateAlone := by
  intro i s t h
  have hf := exec_frame h
  exact ⟨by rw [hf], by rw [hf], by rw [hf], by rw [hf], by rw [hf], exec_draws h⟩

/-- A transfer moves I only with `store_increment_ir` (R234, R235). -/
theorem indexAfter_or {i : Word} {s : State} {n : Nat} (h : i = indexAfter s n) :
    i = s.i ∨ s.quirks.storeIncrementIr = true := by
  unfold indexAfter at h
  split at h
  · next hq => exact .inr hq
  · exact .inl h

/-- Settles O56: I, DT and ST are outside the footprint of every other instruction, and I stays in place in a
transfer without `store_increment_ir`. -/
theorem indexAndTimersHaveTheirWriters : Obligations.IndexAndTimersHaveTheirWriters := by
  intro i s t h
  have hf := exec_footprint h
  refine ⟨?_, ?_, ?_⟩
  · cases i with
    | ldI nnn => exact .inr (.inl ⟨nnn, rfl⟩)
    | addI x => exact .inr (.inr (.inl ⟨x, .inl rfl⟩))
    | ldF x => exact .inr (.inr (.inl ⟨x, .inr rfl⟩))
    | ldMemVx x =>
      obtain ⟨hi, -⟩ := exec_ldMemVx_spec h
      exact (indexAfter_or hi).imp_right fun hq => .inr (.inr ⟨hq, x, .inl rfl⟩)
    | ldVxMem x =>
      obtain ⟨-, hi, -⟩ := exec_ldVxMem_spec h
      exact (indexAfter_or hi).imp_right fun hq => .inr (.inr ⟨hq, x, .inr rfl⟩)
    | _ => exact .inl (congrArg State.i hf :)
  · cases i with
    | ldDtVx x => exact .inr ⟨x, rfl⟩
    | _ => exact .inl (congrArg State.dt hf :)
  · cases i with
    | ldStVx x => exact .inr ⟨x, rfl⟩
    | _ => exact .inl (congrArg State.st hf :)

end Sys2Proof.Machine

namespace Sys2Proof

/-! ### UNKNOWN words -/

/-- Families that the decoder knows whole (30_encoding.md R95). -/
def wholeFamilies : List Nibble := [0x1, 0x2, 0x3, 0x4, 0x6, 0x7, 0xA, 0xB, 0xC, 0xD]
/-- Family and low nibble of the words that the decoder tells by their low nibble (R95). -/
def nibbleFamilies : List (Nibble × Nibble) :=
  [(0x5, 0x0), (0x9, 0x0), (0x8, 0x0), (0x8, 0x1), (0x8, 0x2), (0x8, 0x3), (0x8, 0x4), (0x8, 0x5), (0x8, 0x6), (0x8, 0x7),
   (0x8, 0xE)]
/-- Family and low byte of the words that the decoder tells by their low byte (R95). -/
def byteFamilies : List (Nibble × Byte) :=
  [(0xE, 0x9E), (0xE, 0xA1), (0xF, 0x07), (0xF, 0x0A), (0xF, 0x15), (0xF, 0x18), (0xF, 0x1E), (0xF, 0x29), (0xF, 0x33),
   (0xF, 0x55), (0xF, 0x65)]

theorem decode_of_wholeFamily {w : Word} (h : fieldOp w ∈ wholeFamilies) : ∃ i, decode w = .known i := by
  simp only [wholeFamilies, List.mem_cons, List.not_mem_nil, or_false] at h
  rcases h with h | h | h | h | h | h | h | h | h | h <;> simp [decode, h]

theorem decode_of_nibbleFamily {w : Word} (h : (fieldOp w, fieldN w) ∈ nibbleFamilies) : ∃ i, decode w = .known i := by
  simp only [nibbleFamilies, List.mem_cons, List.not_mem_nil, or_false, Prod.mk.injEq] at h
  rcases h with h | h | h | h | h | h | h | h | h | h | h <;> simp [decode, decode8, h]

theorem decode_of_byteFamily {w : Word} (h : (fieldOp w, fieldNN w) ∈ byteFamilies) : ∃ i, decode w = .known i := by
  simp only [byteFamilies, List.mem_cons, List.not_mem_nil, or_false, Prod.mk.injEq] at h
  rcases h with h | h | h | h | h | h | h | h | h | h | h <;> simp [decode, decodeE, decodeF, h]

/-- What a row of the opcode table fixes: the whole word, or fields that the decoder knows (R94). -/
theorem opcodeRows_families : ∀ r ∈ opcodeRows,
    (r.mask = BitVec.allOnes 16 ∧ (r.value = 0x00E0 ∨ r.value = 0x00EE)) ∨
    (fieldOp r.mask = BitVec.allOnes 4 ∧ (fieldOp r.value ∈ wholeFamilies ∨
      (fieldN r.mask = BitVec.allOnes 4 ∧ (fieldOp r.value, fieldN r.value) ∈ nibbleFamilies) ∨
      (fieldNN r.mask = BitVec.allOnes 8 ∧ (fieldOp r.value, fieldNN r.value) ∈ byteFamilies))) := by
  decide

theorem eq_of_and_allOnes {n : Nat} {a m v : BitVec n} (h : a &&& m = v) (hm : m = BitVec.allOnes n) : v = a := by
  rw [← h, hm, BitVec.and_allOnes]

/-- A word that a row accepts has the fields of the row's value, under the row's mask (R94). -/
theorem fields_of_accepts {r : Row} {w : Word} (h : r.accepts w = true) :
    fieldOp w &&& fieldOp r.mask = fieldOp r.value ∧ fieldN w &&& fieldN r.mask = fieldN r.value ∧
    fieldNN w &&& fieldNN r.mask = fieldNN r.value := by
  rw [← beq_iff_eq.mp h]
  simp only [fieldOp, fieldN, fieldNN, BitVec.extractLsb'_and, and_self]

/-- A word of a row is an instruction (R94). -/
theorem decode_known_of_wordMatches {w : Word} (h : wordMatches w = true) : ∃ i, decode w = .known i := by
  obtain ⟨r, hr, hacc⟩ := List.any_eq_true.mp h
  obtain ⟨hop, hn, hnn⟩ := fields_of_accepts hacc
  rcases opcodeRows_families r hr with ⟨hm, hv⟩ | ⟨hm, hv⟩
  · rw [eq_of_and_allOnes (beq_iff_eq.mp hacc) hm] at hv
    rcases hv with rfl | rfl
    · exact ⟨.cls, rfl⟩
    · exact ⟨.ret, rfl⟩
  · rw [eq_of_and_allOnes hop hm] at hv
    rcases hv with hv | ⟨hm, hv⟩ | ⟨hm, hv⟩
    · exact decode_of_wholeFamily hv
    · exact decode_of_nibbleFamily (eq_of_and_allOnes hn hm ▸ hv)
    · exact decode_of_byteFamily (eq_of_and_allOnes hnn hm ▸ hv)

/-- Both branches of a decoder's test name no word but `w` as UNKNOWN. -/
theorem unknown_word_of_ite {c : Prop} [Decidable c] {a b : Decoded} {w u : Word} (ha : a = .unknown u → u = w)
    (hb : b = .unknown u → u = w) : (if c then a else b) = .unknown u → u = w := by
  split
  · exact ha
  · exact hb

theorem decode_unknown_word {w u : Word} : decode w = .unknown u → u = w := by
  unfold decode decode0 decode8 decodeE decodeF
  repeat' apply unknown_word_of_ite
  all_goals rintro ⟨⟩
  all_goals rfl

/-- What the decoder answers UNKNOWN for is the word itself, of no row (R94, R96). -/
theorem decode_unknown {w u : Word} (h : decode w = .unknown u) : u = w ∧ wordMatches w = false := by
  refine ⟨decode_unknown_word h, ?_⟩
  by_contra hm
  obtain ⟨i, hi⟩ := decode_known_of_wordMatches (by simpa using hm)
  simp [h] at hi

end Sys2Proof

namespace Sys2Proof.Machine

/-! ### What a step can do -/

/-- Fields a step may write that is neither a cycle, nor Reset, nor the ROM copy (60_exceptions.md R307, R310, R315):
timers, KEY, QUIRKS, ctl, BATCH_SIZE, TIMER_HZ, and the schedule. -/
def onlyHostFieldsChange (s t : State) : Prop :=
  t = { s with
    dt := t.dt, st := t.st, key := t.key, quirks := t.quirks, ctl := t.ctl, schedule := t.schedule,
    params := { s.params with batchSize := t.params.batchSize, timerHz := t.params.timerHz } }

/-- The four kinds of step. -/
inductive StepKind (s t : State) : Prop
  | executor (s' : State) (turn : executorTurn s s') (run : cycle s' = .next t)
  | reset (rest : List Turn) (turn : s.schedule = .reset :: rest) (eq : t = resetCore (s.setSchedule rest))
  | romCopy (rom : List Byte) (rest : List Turn) (turn : s.schedule = .romDeliver rom :: rest) (loading : s.ctl = .loading)
      (eq : t = loadRom rom (s.setSchedule rest))
  | host (eq : onlyHostFieldsChange s t)

/-- A turn that the control state does not allow (log 11). -/
theorem StepKind.dropped {s t : State} {rest : List Turn}
    (h : (.next (s.setSchedule rest) : Host.Outcome State Fault Refusal) = .next t) : StepKind s t := by
  cases h
  exact .host rfl

theorem stepKind_of_takeTurn {s t : State} {turn : Turn} {rest : List Turn} (hs : s.schedule = turn :: rest)
    (h : takeTurn turn (s.setSchedule rest) = .next t) : StepKind s t := by
  cases turn with
  | cycle =>
    simp only [takeTurn] at h
    split at h
    · next hctl => exact .executor _ (.inr (.inl ⟨rest, hs, hctl, rfl⟩)) h
    · exact .dropped h
  | stepOnce =>
    simp only [takeTurn] at h
    split at h
    · next hctl => exact .executor _ (.inr (.inr ⟨rest, hs, hctl, rfl⟩)) h
    · exact .dropped h
  | reset => exact .reset rest hs (Host.Outcome.next.inj h).symm
  | romDeliver rom =>
    simp only [takeTurn] at h
    split at h
    · next hctl => exact .romCopy rom rest hs hctl (Host.Outcome.next.inj h).symm
    · exact .dropped h
  | keyWrite | start | pauseResume => cases h; exact .host rfl
  | tick | quirksWrite | batchSizeWrite | timerHzWrite =>
    simp only [takeTurn] at h
    split at h
    · cases h; exact .host rfl
    · exact .dropped h

/-- Every step is of one of the four kinds (60_exceptions.md R315). -/
theorem stepKind_of_step {s t : State} (h : step s = .next t) : StepKind s t := by
  rcases step_cases h with ⟨hs, hctl, hc⟩ | ⟨-, -, rfl⟩ | ⟨turn, rest, hs, ht⟩
  · exact .executor s (.inl ⟨hs, hctl, rfl⟩) hc
  · exact .host rfl
  · exact stepKind_of_takeTurn hs ht

/-- The executor's turn leaves the schedule, and nothing else has changed. -/
theorem executorTurn_frame {s s' : State} (h : executorTurn s s') : s' = { s with schedule := s'.schedule } := by
  rcases h with ⟨-, -, rfl⟩ | ⟨rest, -, -, rfl⟩ | ⟨rest, -, -, rfl⟩ <;> rfl

theorem defaultAdvance_frame (s : State) : defaultAdvance s = { s with pc := (defaultAdvance s).pc } := by
  unfold defaultAdvance
  split <;> rfl

theorem loadRom_frame (rom : List Byte) (s : State) :
    loadRom rom s = { s with mem := (loadRom rom s).mem, diags := (loadRom rom s).diags, ctl := .idle } := by
  obtain ⟨-, -, -, hf⟩ := romCopy_spec rom 0x200 s
  unfold loadRom
  rw [hf]
  rfl

/-! ### The invariant -/

theorem exec_mem_wf {i : Instr} {s t : State} (h : exec i s = .next t) (hm : Memory.wf s.params.font s.mem) :
    Memory.wf t.params.font t.mem := by
  cases i with
  | ldB x =>
    cases h
    exact memWrite_wf _ _ (memWrite_wf _ _ (memWrite_wf _ _ hm))
  | ldMemVx x =>
    cases h
    exact List.foldlRecOn (motive := fun (u : State) => Memory.wf u.params.font u.mem) _ _ hm fun _ hu k _ => storeV_wf k hu
  | _ =>
    rw [exec_params h, exec_mem h nofun nofun]
    exact hm

/-- 2nnn pushes only below the capacity of the stack (42_flow.md R162). -/
theorem exec_stackFits {i : Instr} {s t : State} (h : exec i s = .next t) (hs : stackFits s) : stackFits t := by
  intro d hd
  rw [exec_params h] at hd
  have hle := hs d hd
  cases i with
  | call nnn =>
    rcases exec_call_cases h with ⟨-, rfl⟩ | ⟨hfull, rfl⟩
    · exact hle
    · have hne : s.stack.length ≠ d := by simpa [stackFull, Option.mem_def.mp hd] using hfull
      exact Nat.lt_of_le_of_ne hle hne
  | ret =>
    rcases exec_ret_cases h with ⟨-, rfl⟩ | ⟨target, rest, hst, rfl⟩
    · exact hle
    · rw [hst] at hle
      exact Nat.le_of_succ_le hle
  | _ => rwa [exec_stack h nofun nofun]

theorem exec_inv {i : Instr} {s t : State} (h : exec i s = .next t) (hinv : s.Inv) : t.Inv := by
  obtain ⟨hp, hm, hst⟩ := hinv
  exact ⟨exec_params h ▸ hp, exec_mem_wf h hm, exec_stackFits h hst⟩

theorem cycle_inv {s t : State} (h : cycle s = .next t) (hinv : s.Inv) : t.Inv := by
  rcases cycle_cases h with ⟨-, rfl⟩ | ⟨w, -, -, rfl⟩ | ⟨i, u, -, -, he, rfl⟩
  · exact hinv
  · rw [defaultAdvance_frame]
    exact hinv
  · have hu : u.Inv := exec_inv he hinv
    rw [defaultAdvance_frame]
    exact hu

theorem resetCore_inv {s : State} (hp : s.params.wf) : (resetCore s).Inv :=
  ⟨hp, Memory.wf_nil _, fun _ _ => Nat.zero_le _⟩

theorem loadRom_inv {s : State} (rom : List Byte) (hinv : s.Inv) : (loadRom rom s).Inv := by
  obtain ⟨hp, hm, hst⟩ := hinv
  have hwf : Memory.wf (loadRom rom s).params.font (loadRom rom s).mem := romCopy_wf rom 0x200 s hm
  rw [loadRom_frame] at hwf ⊢
  exact ⟨hp, hwf, hst⟩

/-- Settles O48: each of the four kinds of step keeps the invariant. -/
theorem stepKeepsTheInvariant : Obligations.StepKeepsTheInvariant := by
  intro s t hinv h
  cases stepKind_of_step h with
  | executor s' turn run =>
    have hinv' : s'.Inv := by rw [executorTurn_frame turn]; exact hinv
    exact cycle_inv run hinv'
  | reset rest _ eq => exact eq ▸ resetCore_inv hinv.1
  | romCopy rom rest _ _ eq => exact eq ▸ loadRom_inv rom hinv
  | host eq =>
    rw [eq]
    exact hinv

/-- Settles O49: log 3's parameters are unbounded, and memory and the stack are empty. -/
theorem resetMeetsTheInvariant : Obligations.ResetMeetsTheInvariant :=
  ⟨nofun, reset_memory_wf, nofun⟩

/-! ### The diagnostic stream -/

/-- From `s` to `t` the stream grows by events of the shape R301 and R302 give. -/
def appendsEvents (s t : State) : Prop := ∃ events, t.diags = s.diags ++ events ∧ ∀ d ∈ events, d.wf

theorem appendsEvents_of_eq {s t : State} (h : t.diags = s.diags) : appendsEvents s t := ⟨[], by simp [h], nofun⟩

theorem raiseHere_appendsEvents {code : DiagCode} {w : Option Word} {a : Option Nat} {s : State}
    (h : Diag.wf { code := code, pc := some s.pc, word := w, addr := a }) : appendsEvents s (raiseHere code w a s) :=
  ⟨_, rfl, by simpa using h⟩

theorem appendsEvents_trans {s t u : State} (h : appendsEvents s t) (h' : appendsEvents t u) : appendsEvents s u := by
  obtain ⟨e, he, hwf⟩ := h
  obtain ⟨e', he', hwf'⟩ := h'
  refine ⟨e ++ e', by rw [he', he, List.append_assoc], fun d hd => ?_⟩
  rcases List.mem_append.mp hd with hd | hd
  · exact hwf d hd
  · exact hwf' d hd

/-- The events of a run of bytes are those of out-of-bounds addresses. -/
theorem appendsEvents_of_oobEvents {s t : State} {event : Nat → Diag} {address : Nat → Nat} {n : Nat}
    (h : t.diags = s.diags ++ oobEvents event address n) (hwf : ∀ a > 0xFFF, (event a).wf) : appendsEvents s t := by
  refine ⟨_, h, fun d hd => ?_⟩
  obtain ⟨k, -, hk, rfl⟩ := mem_oobEvents hd
  exact hwf _ (Nat.lt_of_not_le hk)

theorem readOobEvent_wf (pc : Word) {a : Nat} (ha : a > 0xFFF) : (readOobEvent pc a).wf := ⟨rfl, a, rfl, ha⟩
theorem writeOobEvent_wf (pc : Word) {a : Nat} (ha : a > 0xFFF) : (writeOobEvent pc a).wf := ⟨rfl, a, rfl, ha⟩
theorem romOobEvent_wf {a : Nat} (ha : a > 0xFFF) : (romOobEvent a).wf := ⟨rfl, rfl, a, rfl, ha⟩

theorem memWrite_appendsEvents (a : Nat) (b : Byte) (s : State) : appendsEvents s (memWrite a b s) := by
  unfold memWrite
  split
  · exact appendsEvents_of_eq rfl
  · next ha => exact raiseHere_appendsEvents (writeOobEvent_wf s.pc (Nat.lt_of_not_le ha))

theorem exec_appendsEvents {i : Instr} {s t : State} (h : exec i s = .next t) : appendsEvents s t := by
  cases i with
  | ret =>
    rcases exec_ret_cases h with ⟨-, rfl⟩ | ⟨_, _, -, rfl⟩
    · exact raiseHere_appendsEvents ⟨rfl, rfl⟩
    · exact appendsEvents_of_eq rfl
  | call nnn =>
    rcases exec_call_cases h with ⟨-, rfl⟩ | ⟨-, rfl⟩
    · exact raiseHere_appendsEvents ⟨rfl, rfl⟩
    · exact appendsEvents_of_eq rfl
  | drw x y n =>
    obtain ⟨-, hd, -⟩ := exec_drw_spec h
    exact appendsEvents_of_oobEvents hd fun _ => readOobEvent_wf _
  | ldB x =>
    cases h
    exact appendsEvents_trans (appendsEvents_trans (memWrite_appendsEvents _ _ _) (memWrite_appendsEvents _ _ _))
      (memWrite_appendsEvents _ _ _)
  | ldMemVx x =>
    obtain ⟨-, hd, -⟩ := exec_ldMemVx_spec h
    exact appendsEvents_of_oobEvents hd fun _ => writeOobEvent_wf _
  | ldVxMem x =>
    obtain ⟨-, -, hd, -⟩ := exec_ldVxMem_spec h
    exact appendsEvents_of_oobEvents hd fun _ => readOobEvent_wf _
  | _ => exact appendsEvents_of_eq (congrArg State.diags (exec_footprint h) :)

theorem cycle_appendsEvents {s t : State} (h : cycle s = .next t) : appendsEvents s t := by
  rcases cycle_cases h with ⟨hp, rfl⟩ | ⟨w, -, hd, rfl⟩ | ⟨i, u, -, -, he, rfl⟩
  · exact raiseHere_appendsEvents (s := s.setAdvance true) ⟨⟨s.pc, rfl, Nat.lt_of_not_le hp⟩, rfl, rfl⟩
  · obtain ⟨rfl, hw⟩ := decode_unknown hd
    rw [defaultAdvance_frame]
    exact raiseHere_appendsEvents (s := s.setAdvance true) ⟨⟨_, rfl, hw⟩, rfl, rfl⟩
  · have hu : appendsEvents s u := exec_appendsEvents (s := s.setAdvance true) he
    rw [defaultAdvance_frame]
    exact hu

theorem loadRom_appendsEvents (rom : List Byte) (s : State) : appendsEvents s (loadRom rom s) := by
  obtain ⟨-, -, hd, -⟩ := romCopy_spec rom 0x200 s
  exact appendsEvents_of_oobEvents (t := loadRom rom s) hd fun _ => romOobEvent_wf

/-- Settles O50: only a cycle and the ROM copy raise events, and those are of their code's shape. -/
theorem stepAppendsWellFormedEvents : Obligations.StepAppendsWellFormedEvents := by
  intro s t h
  cases stepKind_of_step h with
  | executor s' turn run =>
    have hd : s'.diags = s.diags := by rw [executorTurn_frame turn]
    exact appendsEvents_trans (appendsEvents_of_eq hd) (cycle_appendsEvents run)
  | reset rest _ eq => exact eq ▸ appendsEvents_of_eq rfl
  | romCopy rom rest _ _ eq => exact eq ▸ loadRom_appendsEvents rom (s.setSchedule rest)
  | host eq => exact appendsEvents_of_eq (congrArg State.diags eq :)

/-! ### The framebuffer -/

/-- The word the executor decodes on its turn is the one at the pc. -/
theorem fetchDecode_of_executorTurn {s s' : State} (h : executorTurn s s') : fetchDecode s' = decode (wordAtPc s) := by
  rw [executorTurn_frame h]
  rfl

theorem cycle_fb {s t : State} (h : cycle s = .next t) (hfb : t.fb ≠ s.fb) :
    fetchDecode s = .known .cls ∨ ∃ x y n, fetchDecode s = .known (.drw x y n) := by
  rcases cycle_cases h with ⟨-, rfl⟩ | ⟨w, -, -, rfl⟩ | ⟨i, u, -, hd, he, rfl⟩
  · exact absurd rfl hfb
  · rw [defaultAdvance_frame] at hfb
    exact absurd rfl hfb
  · rw [defaultAdvance_frame] at hfb
    rw [hd]
    cases i with
    | cls => exact .inl rfl
    | drw x y n => exact .inr ⟨x, y, n, rfl⟩
    | _ => exact absurd (exec_fb he nofun nofun) hfb

/-- Settles O53: of the four kinds of step, only a cycle and Reset reach the framebuffer. -/
theorem onlyClsDrwAndResetChangeTheGrid : Obligations.OnlyClsDrwAndResetChangeTheGrid := by
  intro s t h hfb
  cases stepKind_of_step h with
  | executor s' turn run =>
    have hs : s'.fb = s.fb := by rw [executorTurn_frame turn]
    refine .inr ⟨s', turn, ?_⟩
    rw [← fetchDecode_of_executorTurn turn]
    exact cycle_fb run (hs ▸ hfb)
  | reset rest turn _ => exact .inl ⟨rest, turn⟩
  | romCopy rom rest _ _ eq =>
    rw [eq, loadRom_frame] at hfb
    exact absurd rfl hfb
  | host eq => exact absurd (congrArg State.fb eq :) hfb

/-! ### Registers -/

/-- A result and its flag leave every other register (44_alu.md R22). -/
theorem readV_writeFlag_writeV_ne {x r : Nibble} (flag b : Byte) (s : State) (h : ¬ (r = x ∨ r = VF)) :
    readV r (writeFlag flag (writeV x b s)) = readV r s := by
  rw [not_or] at h
  rw [readV_writeFlag_ne flag _ h.2, readV_writeV_ne b s h.1]

theorem readV_shiftSource_ne {x y r : Nibble} (s : State) (h : r ≠ x) : readV r (shiftSource x y s) = readV r s := by
  unfold shiftSource
  split
  · exact readV_writeV_ne _ s h
  · rfl

/-- Settles O55: the writers of R21's table leave every other register, and the rest have no register in their footprint. -/
theorem onlyDestinationRegistersChange : Obligations.OnlyDestinationRegistersChange := by
  intro i s t r h hr
  cases i with
  | ldImm | addImm | ldReg | orReg | andReg | xorReg | ldVxDt => cases h; exact readV_writeV_ne _ s hr
  | rnd => cases h; exact readV_writeV_ne _ (s.setDraws _) hr
  | addReg | sub | subn => cases h; exact readV_writeFlag_writeV_ne _ _ s hr
  | shr x y | shl x y =>
    cases h
    exact (readV_writeFlag_writeV_ne _ _ _ hr).trans (readV_shiftSource_ne s fun hx => hr (.inl hx))
  | ldVxK x =>
    obtain ⟨k, -, rfl⟩ | ⟨-, rfl⟩ := exec_ldVxK_cases h
    · exact readV_writeV_ne _ s hr
    · rfl
  | addI x =>
    obtain ⟨-, rfl⟩ | ⟨-, rfl⟩ := exec_addI_cases h
    · exact readV_writeFlag_ne _ _ hr
    · rfl
  | drw x y n =>
    obtain ⟨hregs, -⟩ := exec_drw_spec h
    exact hregs r hr
  | ldVxMem x =>
    obtain ⟨hregs, -⟩ := exec_ldVxMem_spec h
    exact hregs r (Nat.lt_of_not_le hr)
  | _ => exact readV_congr (congrArg State.v (exec_footprint h) :) r

/-! ### State that instructions do not read -/

/-- One row of a sprite: an in-bounds byte is drawn, an out-of-bounds one raises its event (41_display.md R142). -/
theorem drawRow_eq (X0 Y0 : Nat) (s : State) (i : Nat) : drawRow X0 Y0 s i =
    if inBounds (s.i.toNat + i) then drawBits (byteAt (s.i.toNat + i) s) X0 (Y0 + i) (List.range 8) s
    else raiseHere .readOob none (some (s.i.toNat + i)) s := by
  unfold drawRow
  split_ifs with h
  · rw [memRead_of_inBounds s h]
  · rw [memRead_of_oob s h]

/-- The same machine with another call stack, another sound timer, and other events before its own. -/
def swapUnread (σ : List Word → List Word) (τ : Byte → Byte) (before : List Diag) (s : State) : State :=
  { s with stack := σ s.stack, st := τ s.st, diags := before ++ s.diags }

theorem thenNext_ite {c : Prop} [Decidable c] (o o' : Host.Outcome State Fault Refusal) (f : State → State) :
    thenNext (if c then o else o') f = if c then thenNext o f else thenNext o' f :=
  apply_ite (thenNext · f) c o o'

section swapUnread
variable (σ : List Word → List Word) (τ : Byte → Byte) (before : List Diag) (s : State)

theorem raiseHere_swapUnread (code : DiagCode) (w : Option Word) (a : Option Nat) :
    raiseHere code w a (swapUnread σ τ before s) = swapUnread σ τ before (raiseHere code w a s) := by
  apply State.ext <;> simp [swapUnread]

theorem skipIf_swapUnread (c : Bool) : skipIf c (swapUnread σ τ before s) = swapUnread σ τ before (skipIf c s) := by
  cases c <;> rfl

theorem shiftSource_swapUnread (x y : Nibble) :
    shiftSource x y (swapUnread σ τ before s) = swapUnread σ τ before (shiftSource x y s) := by
  unfold shiftSource
  rw [apply_ite (swapUnread σ τ before)]
  rfl

theorem postIncrement_swapUnread : postIncrement (swapUnread σ τ before s) = swapUnread σ τ before (postIncrement s) := by
  unfold postIncrement
  rw [apply_ite (swapUnread σ τ before)]
  rfl

theorem memWrite_swapUnread (a : Nat) (b : Byte) :
    memWrite a b (swapUnread σ τ before s) = swapUnread σ τ before (memWrite a b s) := by
  unfold memWrite
  rw [apply_ite (swapUnread σ τ before), raiseHere_swapUnread]
  rfl

theorem storeV_swapUnread (k : Nat) : storeV (swapUnread σ τ before s) k = swapUnread σ τ before (storeV s k) := by
  unfold storeV
  rw [← postIncrement_swapUnread, ← memWrite_swapUnread]
  rfl

theorem loadV_swapUnread (k : Nat) : loadV (swapUnread σ τ before s) k = swapUnread σ τ before (loadV s k) := by
  rw [loadV_eq, loadV_eq, ← postIncrement_swapUnread, apply_ite (swapUnread σ τ before), ← raiseHere_swapUnread]
  rfl

theorem xorPixel_swapUnread (X : Fin 64) (Y : Fin 32) :
    xorPixel X Y (swapUnread σ τ before s) = swapUnread σ τ before (xorPixel X Y s) := by
  unfold xorPixel
  rw [apply_ite (swapUnread σ τ before)]
  rfl

theorem drawBits_swapUnread (b : Byte) (X0 Y : Nat) (js : List Nat) :
    drawBits b X0 Y js (swapUnread σ τ before s) = swapUnread σ τ before (drawBits b X0 Y js s) := by
  induction js generalizing s with
  | nil => rfl
  | cons j js ih =>
    rw [drawBits, drawBits, show (swapUnread σ τ before s).quirks = s.quirks from rfl]
    split
    · rfl
    · rw [xorPixel_swapUnread, ← ih, apply_ite (swapUnread σ τ before)]

theorem drawRow_swapUnread (X0 Y0 i : Nat) :
    drawRow X0 Y0 (swapUnread σ τ before s) i = swapUnread σ τ before (drawRow X0 Y0 s i) := by
  rw [drawRow_eq, drawRow_eq, apply_ite (swapUnread σ τ before), ← drawBits_swapUnread, ← raiseHere_swapUnread]
  rfl

theorem drawRows_swapUnread (X0 Y0 : Nat) (rows : List Nat) :
    rows.foldl (drawRow X0 Y0) (swapUnread σ τ before s) = swapUnread σ τ before (rows.foldl (drawRow X0 Y0) s) :=
  List.foldl_hom _ fun u k => drawRow_swapUnread σ τ before u X0 Y0 k

/-- Every instruction but 2nnn, 00EE and Fx18 does the same whatever the stack, ST and the stream hold. -/
theorem exec_swapUnread {i : Instr} (hcall : ∀ nnn, i ≠ .call nnn) (hret : i ≠ .ret) (hst : ∀ x, i ≠ .ldStVx x) :
    exec i (swapUnread σ τ before s) = thenNext (exec i s) (swapUnread σ τ before) := by
  cases i with
  | call nnn => exact absurd rfl (hcall nnn)
  | ret => exact absurd rfl hret
  | ldStVx x => exact absurd rfl (hst x)
  | seImm | sneImm | seReg | sneReg | skp | sknp => exact congrArg Host.Outcome.next (skipIf_swapUnread ..)
  | shr x y => simp only [exec, execShr, shiftSource_swapUnread]; rfl
  | shl x y => simp only [exec, execShl, shiftSource_swapUnread]; rfl
  | ldVxK x =>
    show execLdVxK x _ = thenNext (execLdVxK x s) _
    unfold execLdVxK
    rw [show lowestKey (swapUnread σ τ before s) = lowestKey s from rfl]
    split <;> rfl
  | addI x =>
    show execAddI x _ = thenNext (execAddI x s) _
    unfold execAddI
    rw [thenNext_ite]
    rfl
  | ldB x => simp only [exec, execLdB, thenNext, ← memWrite_swapUnread]; rfl
  | drw x y n =>
    exact congrArg Host.Outcome.next (drawRows_swapUnread σ τ before (writeFlag 0 s) _ _ _)
  | ldMemVx x =>
    exact congrArg Host.Outcome.next (List.foldl_hom (swapUnread σ τ before) fun u k => storeV_swapUnread σ τ before u k)
  | ldVxMem x =>
    exact congrArg Host.Outcome.next (List.foldl_hom (swapUnread σ τ before) fun u k => loadV_swapUnread σ τ before u k)
  | _ => rfl

/-- 2nnn and 00EE read the stack, but neither ST nor the stream. -/
theorem exec_swapUnread_of_stack {i : Instr} (hst : ∀ x, i ≠ .ldStVx x) :
    exec i (swapUnread id τ before s) = thenNext (exec i s) (swapUnread id τ before) := by
  cases i with
  | call nnn =>
    show execCall nnn _ = thenNext (execCall nnn s) _
    unfold execCall
    rw [show stackFull (swapUnread id τ before s) = stackFull s from rfl, raiseHere_swapUnread]
    split <;> rfl
  | ret =>
    show execRet _ = thenNext (execRet s) _
    unfold execRet
    rw [show (swapUnread id τ before s).stack = s.stack from rfl, raiseHere_swapUnread]
    split <;> rfl
  | _ => exact exec_swapUnread id τ before s nofun nofun hst

end swapUnread

theorem thenNext_eq_next {o : Host.Outcome State Fault Refusal} {f : State → State} {t : State}
    (h : thenNext o f = .next t) : ∃ u, o = .next u ∧ t = f u := by
  cases o with
  | next u => exact ⟨u, rfl, (Host.Outcome.next.inj h).symm⟩
  | fault r => cases h
  | refused r => cases h

/-- Settles O52: 2nnn and 00EE by their cases, any other instruction by its footprint and by `exec_swapUnread`. -/
theorem onlyCallAndRetReachTheStack : Obligations.OnlyCallAndRetReachTheStack := by
  constructor
  · intro i s t h
    cases i with
    | call nnn =>
      obtain ⟨-, rfl⟩ | ⟨-, rfl⟩ := exec_call_cases h
      · exact .inl rfl
      · exact .inr (.inl ⟨nnn, rfl, rfl⟩)
    | ret =>
      obtain ⟨-, rfl⟩ | ⟨target, rest, hs, rfl⟩ := exec_ret_cases h
      · exact .inl rfl
      · exact .inr (.inr ⟨rfl, hs⟩)
    | _ => exact .inl (exec_stack h nofun nofun)
  · intro i s t stack hcall hret h
    by_cases hst : ∃ x, i = .ldStVx x
    · obtain ⟨x, rfl⟩ := hst
      cases h
      rfl
    · have := exec_swapUnread (fun _ => stack) id [] s hcall hret (not_exists.mp hst)
      rw [h] at this
      exact this

/-- Settles O58: seen from its own events alone, a run of one instruction is the same before any stream and with any ST;
Fx18 overwrites ST. -/
theorem soundTimerAndEventsAreNeverRead : Obligations.SoundTimerAndEventsAreNeverRead := by
  intro i s t st diags h
  by_cases hst : ∃ x, i = .ldStVx x
  · obtain ⟨x, rfl⟩ := hst
    cases h
    exact ⟨[], _, by simp, rfl, by simp [State.setSt, readV], .inr ⟨⟨x, rfl⟩, rfl⟩⟩
  · have hst' := not_exists.mp hst
    have hs : swapUnread id id s.diags (s.setDiags []) = s := by simp [swapUnread, State.setDiags]
    have hs' : swapUnread id (fun _ => st) diags (s.setDiags []) = { s with st := st, diags := diags } := by
      simp [swapUnread, State.setDiags]
    rw [← hs, exec_swapUnread_of_stack _ _ _ hst'] at h
    obtain ⟨t₀, h₀, rfl⟩ := thenNext_eq_next h
    refine ⟨t₀.diags, swapUnread id (fun _ => st) diags t₀, rfl, ?_, rfl, .inl rfl⟩
    rw [← hs', exec_swapUnread_of_stack _ _ _ hst', h₀]
    rfl

/-! ### The host's turns -/

theorem step_of_schedule {s : State} {turn : Turn} {rest : List Turn} (h : s.schedule = turn :: rest) :
    step s = takeTurn turn (s.setSchedule rest) := by
  rw [step, nextTurn, h]

/-- Settles O42, by the keyboard's read after write. -/
theorem keyWriteSetsOneSlot : Obligations.KeyWriteSetsOneSlot := by
  intro s k pressed rest h
  refine ⟨setKeySlot k pressed (s.setSchedule rest), step_of_schedule h, ?_, fun j hj => ?_, rfl⟩
  · rw [keySlot_setKeySlot, if_pos rfl]
  · rw [keySlot_setKeySlot, if_neg hj]
    rfl

/-- Settles O43: each of the three turns tests for IDLE (R315). -/
theorem configurationIsWrittenInIdle : Obligations.ConfigurationIsWrittenInIdle := by
  intro s rest
  refine ⟨fun _ hs hctl => ?_, fun _ hs hctl => ?_, fun _ hs hctl => ?_, fun _ _ hs hctl => ?_⟩
  · exact (step_of_schedule hs).trans (congrArg Host.Outcome.next (if_pos hctl))
  · exact (step_of_schedule hs).trans (congrArg Host.Outcome.next (if_pos hctl))
  · exact (step_of_schedule hs).trans (congrArg Host.Outcome.next (if_pos hctl))
  · rcases hs with hs | hs | hs <;>
      exact (step_of_schedule hs).trans (congrArg Host.Outcome.next (if_neg hctl))

/-! ### Reset -/

/-- Reset leaves memory at its reset contents (20_memory.md R61, R66). -/
theorem byteAt_resetCore (a : Nat) (s : State) : byteAt a (resetCore s) = Memory.unlisted s.params.font a := rfl

/-- "glyph d occupies 5·d … 5·d + 4" (R61). -/
theorem Memory.unlisted_glyph (font : Font) {d j : Nat} (hd : d < 16) (hj : j < 5) :
    Memory.unlisted font (5 * d + j) = font[d][j] := by
  have hlt : 5 * d + j < 80 := by omega
  have hdiv : (5 * d + j) / 5 = d := by omega
  have hmod : (5 * d + j) % 5 = j := by omega
  simp [Memory.unlisted, hlt, hdiv, hmod]

theorem Memory.unlisted_of_le (font : Font) {a : Nat} (ha : 80 ≤ a) : Memory.unlisted font a = 0x00 :=
  dif_neg (Nat.not_lt.mpr ha)

/-- Settles O44: every field is a literal of Reset or kept, and an unlisted byte reads as the font or zero. -/
theorem resetSetsEveryPieceOfState : Obligations.ResetSetsEveryPieceOfState := by
  intro s rest h
  refine ⟨resetCore (s.setSchedule rest), step_of_schedule h, rfl, fun r => ?_, rfl, rfl, rfl, rfl, rfl, fun X Y => ?_,
    fun k => ?_, fun d j hd hj => ?_, fun a ha => ?_, rfl, rfl, rfl, rfl, rfl, rfl⟩
  · simp [readV, resetCore]
  · simp [cell, resetCore]
  · simp [keySlot, resetCore]
  · exact (byteAt_resetCore _ _).trans (Memory.unlisted_glyph s.params.font hd hj)
  · exact (byteAt_resetCore _ _).trans (Memory.unlisted_of_le s.params.font ha)

/-- Settles O46: Reset leaves LOADING, where an empty ROM only sets IDLE. -/
theorem powerOnIsResetWithEmptyRom : Obligations.PowerOnIsResetWithEmptyRom := by
  intro s rest h
  refine ⟨resetCore (s.setSchedule (.romDeliver [] :: rest)), _, step_of_schedule h, ?_, rfl⟩
  rw [step_of_schedule (turn := .romDeliver []) (rest := rest) rfl]
  rfl

end Sys2Proof.Machine

/-! Proofs of the family 20_memory.md. Which bytes a cycle and a step can change, and what Fx33 and Fx55 store, are each said
once; the obligations follow. -/

namespace Sys2Proof

theorem decode_ldB (x : Nibble) : decode (0xF#4 ++ x ++ 0x33#8) = .known (.ldB x) := by simp [decode, decodeF]
theorem decode_ldMemVx (x : Nibble) : decode (0xF#4 ++ x ++ 0x55#8) = .known (.ldMemVx x) := by simp [decode, decodeF]

end Sys2Proof

namespace Sys2Proof.Machine

/-! ### The executor's turn -/

/-- On the executor's turn the step executes the instruction at the pc and advances (40_cycle.md R120). -/
theorem step_of_known {s s' : State} {i : Instr} (turn : executorTurn s s') (hp : fetchable s.pc)
    (hd : decode (wordAtPc s) = .known i) : step s = thenNext (exec i (s'.setAdvance true)) defaultAdvance := by
  have hpc : s'.pc = s.pc := by rw [executorTurn_frame turn]
  rw [step_of_executorTurn turn]
  exact cycle_of_known (hpc ▸ hp) ((fetchDecode_of_executorTurn turn).trans hd)

@[simp] theorem defaultAdvance_params (s : State) : (defaultAdvance s).params = s.params := by rw [defaultAdvance_frame]
@[simp] theorem defaultAdvance_mem (s : State) : (defaultAdvance s).mem = s.mem := by rw [defaultAdvance_frame]

@[simp] theorem byteAt_defaultAdvance (a : Nat) (s : State) : byteAt a (defaultAdvance s) = byteAt a s :=
  byteAt_congr (defaultAdvance_params s) (defaultAdvance_mem s) a

theorem defaultAdvance_pc {s : State} (h : s.advance = true) : (defaultAdvance s).pc = s.pc + 2 := by
  rw [defaultAdvance, if_pos h]
  rfl

/-! ### Which bytes change -/

/-- Only Fx33 and Fx55 change a byte (45_index_memory.md R233, R234). -/
theorem exec_byteAt {i : Instr} {s t : State} (h : exec i s = .next t) (hB : ∀ x, i ≠ .ldB x) (hM : ∀ x, i ≠ .ldMemVx x)
    (a : Nat) : byteAt a t = byteAt a s :=
  byteAt_congr (exec_params h) (exec_mem h hB hM) a

theorem cycle_byteAt {s t : State} {a : Nat} (h : cycle s = .next t) (ha : byteAt a t ≠ byteAt a s) :
    ∃ x, fetchDecode s = .known (.ldB x) ∨ fetchDecode s = .known (.ldMemVx x) := by
  rcases cycle_cases h with ⟨-, rfl⟩ | ⟨w, -, -, rfl⟩ | ⟨i, u, -, hd, he, rfl⟩
  · exact absurd rfl ha
  · exact absurd (byteAt_defaultAdvance a _) ha
  · rw [byteAt_defaultAdvance] at ha
    rw [hd]
    cases i with
    | ldB x => exact ⟨x, .inl rfl⟩
    | ldMemVx x => exact ⟨x, .inr rfl⟩
    | _ => exact absurd (exec_byteAt he nofun nofun a) ha

/-- The host's turns write no memory and keep FONT. -/
theorem byteAt_of_onlyHostFieldsChange {s t : State} (h : onlyHostFieldsChange s t) (a : Nat) : byteAt a t = byteAt a s := by
  rw [h]
  rfl

/-- Settles O54: of the four kinds of step, the host's keeps every byte, and a cycle changes one only by Fx33 or Fx55. -/
theorem onlyStoresAndResetChangeMemory : Obligations.OnlyStoresAndResetChangeMemory := by
  intro s t a h ha
  cases stepKind_of_step h with
  | executor s' turn run =>
    have hs : byteAt a s' = byteAt a s := by rw [executorTurn_frame turn]; rfl
    refine .inr (.inr ⟨s', turn, ?_⟩)
    rw [← fetchDecode_of_executorTurn turn]
    exact cycle_byteAt run (hs ▸ ha)
  | reset rest turn _ => exact .inl ⟨rest, turn⟩
  | romCopy rom rest turn loading _ => exact .inr (.inl ⟨rom, rest, turn, loading⟩)
  | host eq => exact absurd (byteAt_of_onlyHostFieldsChange eq a) ha

/-! ### Fx33 -/

/-- Memory after Fx33, byte by byte (R233). -/
theorem byteAt_of_exec_ldB {x : Nibble} {s t : State} (h : exec (.ldB x) s = .next t) (a : Nat) : byteAt a t =
    if inBounds (s.i.toNat + 2) ∧ a = s.i.toNat + 2 then readV x s % 10
    else if inBounds (s.i.toNat + 1) ∧ a = s.i.toNat + 1 then readV x s / 10 % 10
    else if inBounds s.i.toNat ∧ a = s.i.toNat then readV x s / 100
    else byteAt a s := by
  obtain rfl := Host.Outcome.next.inj h
  simp only [byteAt_memWrite]

/-- The events of Fx33: those of its three addresses, in order (R65). -/
theorem diags_of_exec_ldB {x : Nibble} {s t : State} (h : exec (.ldB x) s = .next t) :
    t.diags = s.diags ++ oobEvents (writeOobEvent s.pc) (s.i.toNat + ·) 3 := by
  obtain rfl := Host.Outcome.next.inj h
  simp only [memWrite_diags, memWrite_pc, oobEvents_succ, oobEvents_zero, writeOobEvent, List.append_assoc, List.nil_append,
    Nat.add_zero]

/-- Settles O30: the three addresses differ, so each holds its own digit. -/
theorem ldBStoresThreeDigits : Obligations.LdBStoresThreeDigits := by
  intro x s
  obtain ⟨t, h⟩ : ∃ t, exec (.ldB x) s = .next t := ⟨_, rfl⟩
  refine ⟨decode_ldB x, t, h, fun hb => ?_, fun hb => ?_, fun hb => ?_, fun a ha => ?_, diags_of_exec_ldB h,
    exec_footprint h⟩
  · rw [byteAt_of_exec_ldB h, if_neg (by omega), if_neg (by omega), if_pos ⟨hb, rfl⟩, BitVec.toNat_udiv]
    rfl
  · rw [byteAt_of_exec_ldB h, if_neg (by omega), if_pos ⟨hb, rfl⟩, BitVec.toNat_umod, BitVec.toNat_udiv]
    rfl
  · rw [byteAt_of_exec_ldB h, if_pos ⟨hb, rfl⟩, BitVec.toNat_umod]
    rfl
  · rw [byteAt_of_exec_ldB h, if_neg fun ⟨hb, e⟩ => ha 2 (by omega) hb e, if_neg fun ⟨hb, e⟩ => ha 1 (by omega) hb e,
      if_neg fun ⟨hb, e⟩ => ha 0 (by omega) hb e]

/-! ### Fx55 over the next instruction -/

/-- The bytes that Fx55 stores (R234). -/
theorem byteAt_of_exec_ldMemVx {x k : Nibble} {s t : State} (h : exec (.ldMemVx x) s = .next t) (hk : k.toNat ≤ x.toNat)
    (hb : inBounds (transferAddress s k.toNat)) : byteAt (transferAddress s k.toNat) t = readV k s := by
  obtain rfl := Host.Outcome.next.inj h
  obtain ⟨hstored, -⟩ := storeV_fold s (x.toNat + 1) x.isLt
  have hkt := hstored k.toNat (Nat.lt_succ_of_le hk) hb
  rwa [BitVec.ofNat_toNat, BitVec.setWidth_eq] at hkt

/-- Below the wrap of I the address of byte `k` is `I + k`, under either setting of `store_increment_ir`. -/
theorem transferAddress_of_lt {s : State} {k : Nat} (h : s.i.toNat + k < 65536) : transferAddress s k = s.i.toNat + k := by
  unfold transferAddress
  rw [Nat.mod_eq_of_lt h, ite_self]

/-- Settles O8: I is the next pc, so byte 0 and byte 1 of Fx55 are the two bytes of the next fetch. -/
theorem storedWordIsTheNextFetched : Obligations.StoredWordIsTheNextFetched := by
  intro s s' x turn hw hx hp hi
  obtain ⟨u, hu⟩ : ∃ u, exec (.ldMemVx x) (s'.setAdvance true) = .next u := ⟨_, rfl⟩
  have hd : decode (wordAtPc s) = .known (.ldMemVx x) := hw ▸ decode_ldMemVx x
  have hfetch : fetchable s.pc := by omega
  have hstep : step s = .next (defaultAdvance u) := by rw [step_of_known turn hfetch hd, hu]; rfl
  obtain ⟨hi', hv', hpc'⟩ : s'.i = s.i ∧ s'.v = s.v ∧ s'.pc = s.pc := by rw [executorTurn_frame turn]; exact ⟨rfl, rfl, rfl⟩
  have hadv : u.advance = true := (congrArg State.advance (exec_footprint hu) :)
  have hupc : u.pc = s.pc := (congrArg State.pc (exec_footprint hu)).trans hpc'
  have hpc : (defaultAdvance u).pc = s.pc + 2 := by rw [defaultAdvance_pc hadv, hupc]
  have hnext : (s.pc + 2).toNat = s.pc.toNat + 2 := by bv_omega
  have hstored : ∀ k : Nibble, k.toNat ≤ 1 → byteAt (s.pc.toNat + 2 + k.toNat) u = readV k s := by
    intro k hk
    have haddr : transferAddress (s'.setAdvance true) k.toNat = s.pc.toNat + 2 + k.toNat := by
      rw [transferAddress_of_lt (by rw [State.setAdvance_i, hi']; omega), State.setAdvance_i, hi', hi]
    rw [← haddr, byteAt_of_exec_ldMemVx hu (hk.trans hx) (by omega)]
    exact readV_congr hv' k
  refine ⟨_, hstep, hpc, ?_⟩
  rw [wordAtPc, hpc, hnext, byteAt_defaultAdvance, byteAt_defaultAdvance]
  exact congrArg₂ (· ++ ·) (hstored 0 (by decide)) (hstored 1 (by decide))

end Sys2Proof.Machine

/-! Proofs of the family 30_encoding.md. A word is rebuilt from the fields its format names; what the decoder answers encodes
to the word (`encodes`), the row of an encoded instruction accepts it, and each family's UNKNOWN words are said once; the
obligations follow. -/

namespace Sys2Proof

/-! ### Decoding an encoded instruction -/

/-- Settles O1: the fields of each format's word are the operands, and family and suffix choose the decoder's branch. -/
theorem decodeInvertsEncode : Obligations.DecodeInvertsEncode := by
  intro i hwf
  cases i with
  | cls | ret => rfl
  | jp | call | ldI => simp [encode, decode]
  | jpOff nnn x nn =>
    obtain ⟨rfl, rfl⟩ : x = nnn.extractLsb' 8 4 ∧ nn = nnn.extractLsb' 0 8 := by simpa [Instr.wellFormed] using hwf
    simp [encode, decode]
  | seImm | sneImm | ldImm | addImm | rnd => simp [encode, decode]
  | seReg | sneReg | drw => simp [encode, decode]
  | ldReg | orReg | andReg | xorReg | addReg | sub | shr | subn | shl => simp [encode, decode, decode8]
  | skp | sknp => simp [encode, decode, decodeE]
  | ldVxDt | ldVxK | ldDtVx | ldStVx | addI | ldF | ldB | ldMemVx | ldVxMem => simp [encode, decode, decodeF]

/-! ### A word from its fields -/

section
variable {w : Word} {op n : Nibble} {nn : Byte}

theorem word_of_nnn (hop : fieldOp w = op) : op ++ fieldNNN w = w := hop ▸ word_eq_nnn w
theorem word_of_xnn (hop : fieldOp w = op) : op ++ fieldX w ++ fieldNN w = w := hop ▸ word_eq_xnn w
theorem word_of_xyn (hop : fieldOp w = op) : op ++ fieldX w ++ fieldY w ++ fieldN w = w := hop ▸ word_eq_xyn w
theorem word_of_xs (hop : fieldOp w = op) (hnn : fieldNN w = nn) : op ++ fieldX w ++ nn = w := hnn ▸ word_of_xnn hop
theorem word_of_xys (hop : fieldOp w = op) (hn : fieldN w = n) : op ++ fieldX w ++ fieldY w ++ n = w :=
  hn ▸ word_of_xyn hop

end

/-- Bnnn's overlapping fields are the same bits of the word (30_encoding.md R91). -/
theorem jpOff_wellFormed (w : Word) : (Instr.jpOff (fieldNNN w) (fieldX w) (fieldNN w)).wellFormed = true := by
  rw [Instr.wellFormed, ← fieldX_nnn (fieldOp w), ← fieldNN_nnn (fieldOp w), word_eq_nnn, beq_self_eq_true, beq_self_eq_true]
  rfl

/-! ### Encoding a decoded word -/

/-- An instruction that the decoder answers for `w` is well formed and encodes to `w`. -/
def encodes (w : Word) : Decoded → Prop
  | .known i => encode i = w ∧ i.wellFormed = true
  | .unknown _ => True

theorem encodes_ite {w : Word} {c : Prop} [Decidable c] {a b : Decoded} (ha : c → encodes w a) (hb : ¬ c → encodes w b) :
    encodes w (if c then a else b) := by
  split
  · next h => exact ha h
  · next h => exact hb h

theorem decode0_encodes (w : Word) : encodes w (decode0 w) :=
  encodes_ite (fun h => ⟨h.symm, rfl⟩) fun _ => encodes_ite (fun h => ⟨h.symm, rfl⟩) fun _ => trivial

theorem decode8_encodes {w : Word} (hop : fieldOp w = 0x8) : encodes w (decode8 w) := by
  iterate 9 refine encodes_ite (fun hn => ⟨word_of_xys hop hn, rfl⟩) fun _ => ?_
  trivial

theorem decodeE_encodes {w : Word} (hop : fieldOp w = 0xE) : encodes w (decodeE w) := by
  iterate 2 refine encodes_ite (fun hnn => ⟨word_of_xs hop hnn, rfl⟩) fun _ => ?_
  trivial

theorem decodeF_encodes {w : Word} (hop : fieldOp w = 0xF) : encodes w (decodeF w) := by
  iterate 9 refine encodes_ite (fun hnn => ⟨word_of_xs hop hnn, rfl⟩) fun _ => ?_
  trivial

/-- The families in the decoder's order; the tests before the last leave it family F alone. -/
theorem decode_encodes (w : Word) : encodes w (decode w) := by
  refine encodes_ite (fun _ => decode0_encodes w) fun _ => ?_
  iterate 2 refine encodes_ite (fun hop => ⟨word_of_nnn hop, rfl⟩) fun _ => ?_
  iterate 2 refine encodes_ite (fun hop => ⟨word_of_xnn hop, rfl⟩) fun _ => ?_
  refine encodes_ite (fun hop => encodes_ite (fun hn => ⟨word_of_xys hop hn, rfl⟩) fun _ => trivial) fun _ => ?_
  iterate 2 refine encodes_ite (fun hop => ⟨word_of_xnn hop, rfl⟩) fun _ => ?_
  refine encodes_ite (fun hop => decode8_encodes hop) fun _ => ?_
  refine encodes_ite (fun hop => encodes_ite (fun hn => ⟨word_of_xys hop hn, rfl⟩) fun _ => trivial) fun _ => ?_
  refine encodes_ite (fun hop => ⟨word_of_nnn hop, rfl⟩) fun _ => ?_
  refine encodes_ite (fun hop => ⟨word_of_nnn hop, jpOff_wellFormed w⟩) fun _ => ?_
  refine encodes_ite (fun hop => ⟨word_of_xnn hop, rfl⟩) fun _ => ?_
  refine encodes_ite (fun hop => ⟨word_of_xyn hop, rfl⟩) fun _ => ?_
  refine encodes_ite (fun hop => decodeE_encodes hop) fun _ => ?_
  exact decodeF_encodes (by bv_omega)

/-- Settles O2, from what each branch of the decoder answers. -/
theorem encodeInvertsDecode : Obligations.EncodeInvertsDecode := by
  intro w i h
  have hw := decode_encodes w
  rwa [h] at hw

/-! ### The opcode table -/

open Laws in
/-- Every encoded instruction is in its own row (R93, R94). -/
theorem row_accepts_encode (i : Instr) : i.row.accepts (encode i) = true := by
  cases i
  exacts [EncodeInRow.cls, EncodeInRow.ret, EncodeInRow.jp _, EncodeInRow.call _, EncodeInRow.seImm _ _,
    EncodeInRow.sneImm _ _, EncodeInRow.seReg _ _, EncodeInRow.ldImm _ _, EncodeInRow.addImm _ _, EncodeInRow.ldReg _ _,
    EncodeInRow.orReg _ _, EncodeInRow.andReg _ _, EncodeInRow.xorReg _ _, EncodeInRow.addReg _ _, EncodeInRow.sub _ _,
    EncodeInRow.shr _ _, EncodeInRow.subn _ _, EncodeInRow.shl _ _, EncodeInRow.sneReg _ _, EncodeInRow.ldI _,
    EncodeInRow.jpOff _ _ _, EncodeInRow.rnd _ _, EncodeInRow.drw _ _ _, EncodeInRow.skp _, EncodeInRow.sknp _,
    EncodeInRow.ldVxDt _, EncodeInRow.ldVxK _, EncodeInRow.ldDtVx _, EncodeInRow.ldStVx _, EncodeInRow.addI _,
    EncodeInRow.ldF _, EncodeInRow.ldB _, EncodeInRow.ldMemVx _, EncodeInRow.ldVxMem _]

theorem row_mem_opcodeRows (i : Instr) : i.row ∈ opcodeRows := by
  cases i <;> simp [Instr.row, opcodeRows]

theorem row_accepts_of_decode {w : Word} {i : Instr} (h : decode w = .known i) : i.row.accepts w = true := by
  obtain ⟨rfl, -⟩ := encodeInvertsDecode w i h
  exact row_accepts_encode i

theorem wordMatches_of_decode {w : Word} {i : Instr} (h : decode w = .known i) : wordMatches w = true :=
  List.any_eq_true.mpr ⟨i.row, row_mem_opcodeRows i, row_accepts_of_decode h⟩

/-- Two rows that accept one word agree on the bits that both masks fix. -/
theorem values_agree_of_accepts {r r' : Row} {w : Word} (h : r.accepts w = true) (h' : r'.accepts w = true) :
    r.value &&& r'.mask = r'.value &&& r.mask := by
  rw [← beq_iff_eq.mp h, ← beq_iff_eq.mp h', BitVec.and_assoc, BitVec.and_assoc, BitVec.and_comm r.mask]

/-- "The rows are disjoint" (R94): two rows differ on a bit that both masks fix. -/
theorem opcodeRows_disjoint : ∀ r ∈ opcodeRows, ∀ r' ∈ opcodeRows, r.value &&& r'.mask = r'.value &&& r.mask → r = r' := by
  decide

/-- Settles O3: a decoded word is the encoded word of its instruction, which that instruction's row accepts. -/
theorem decoderAgreesWithTheOpcodeTable : Obligations.DecoderAgreesWithTheOpcodeTable := by
  refine ⟨fun w hw => ?_, fun w hw => ?_, fun w r hr r' hr' h h' => ?_⟩
  · cases hd : decode w with
    | unknown u => rw [decode_unknown_word hd]
    | known i => simp [wordMatches_of_decode hd] at hw
  · obtain ⟨i, hi⟩ := decode_known_of_wordMatches hw
    exact ⟨i, hi, row_accepts_of_decode hi⟩
  · exact opcodeRows_disjoint r hr r' hr' (values_agree_of_accepts h h')

/-! ### Which words are UNKNOWN -/

/-- A decoder's test passes its UNKNOWN words on. -/
theorem unknown_ite_known_iff {c : Prop} [Decidable c] {i : Instr} {d : Decoded} :
    (∃ u, (if c then .known i else d) = .unknown u) ↔ ¬ c ∧ ∃ u, d = .unknown u := by
  by_cases h : c <;> simp [h]

theorem decode0_unknown_iff (w : Word) : (∃ u, decode0 w = .unknown u) ↔ w ≠ 0x00E0 ∧ w ≠ 0x00EE := by
  simp [decode0, unknown_ite_known_iff]

theorem decode8_unknown_iff (w : Word) :
    (∃ u, decode8 w = .unknown u) ↔ fieldN w ∈ [0x8, 0x9, 0xA, 0xB, 0xC, 0xD, 0xF] := by
  have complement : ∀ n : Nibble, n ∉ [0x0, 0x1, 0x2, 0x3, 0x4, 0x5, 0x6, 0x7, 0xE] ↔
      n ∈ [0x8, 0x9, 0xA, 0xB, 0xC, 0xD, 0xF] := by decide
  rw [← complement]
  simp [decode8, unknown_ite_known_iff]

theorem decodeE_unknown_iff (w : Word) : (∃ u, decodeE w = .unknown u) ↔ fieldNN w ∉ [0x9E, 0xA1] := by
  simp [decodeE, unknown_ite_known_iff]

theorem decodeF_unknown_iff (w : Word) :
    (∃ u, decodeF w = .unknown u) ↔ fieldNN w ∉ [0x07, 0x0A, 0x15, 0x18, 0x1E, 0x29, 0x33, 0x55, 0x65] := by
  simp [decodeF, unknown_ite_known_iff]

/-- Family 0 is 0x0000–0x0FFF (R91). -/
theorem fieldOp_eq_zero_iff (w : Word) : fieldOp w = 0x0 ↔ w.toNat ≤ 0x0FFF := by
  rw [← BitVec.toNat_inj, fieldOp, BitVec.extractLsb'_toNat, Nat.shiftRight_eq_div_pow]
  change _ = 0 ↔ _
  omega

/-- The families that the decoder knows whole, and those with a test of their own. -/
theorem family_cases (op : Nibble) :
    op ∈ wholeFamilies ∨ op = 0x0 ∨ op = 0x5 ∨ op = 0x8 ∨ op = 0x9 ∨ op = 0xE ∨ op = 0xF := by
  revert op
  decide

theorem not_partial_of_wholeFamily : ∀ op ∈ wholeFamilies,
    op ≠ 0x0#4 ∧ op ≠ 0x5#4 ∧ op ≠ 0x8#4 ∧ op ≠ 0x9#4 ∧ op ≠ 0xE#4 ∧ op ≠ 0xF#4 := by
  decide

/-- The classes of R96, family by family. -/
theorem decode_unknown_iff (w : Word) : (∃ u, decode w = .unknown u) ↔
    (fieldOp w = 0x0 ∧ w ≠ 0x00E0 ∧ w ≠ 0x00EE) ∨
    ((fieldOp w = 0x5 ∨ fieldOp w = 0x9) ∧ fieldN w ≠ 0x0) ∨
    (fieldOp w = 0x8 ∧ fieldN w ∈ [0x8, 0x9, 0xA, 0xB, 0xC, 0xD, 0xF]) ∨
    (fieldOp w = 0xE ∧ fieldNN w ∉ [0x9E, 0xA1]) ∨
    (fieldOp w = 0xF ∧ fieldNN w ∉ [0x07, 0x0A, 0x15, 0x18, 0x1E, 0x29, 0x33, 0x55, 0x65]) := by
  rcases family_cases (fieldOp w) with h | h | h | h | h | h | h
  · obtain ⟨i, hi⟩ := decode_of_wholeFamily h
    simp [hi, not_partial_of_wholeFamily _ h]
  · simp [decode, h, decode0_unknown_iff]
  · simp [decode, h, unknown_ite_known_iff]
  · simp [decode, h, decode8_unknown_iff]
  · simp [decode, h, unknown_ite_known_iff]
  · simp [decode, h, decodeE_unknown_iff]
  · simp [decode, h, decodeF_unknown_iff]

end Sys2Proof

namespace Sys2Proof.Machine

/-- On the executor's turn an UNKNOWN word at the pc is recorded and passed over (40_cycle.md R125). -/
theorem step_of_unknown {s s' : State} {u : Word} (turn : executorTurn s s') (hp : fetchable s.pc)
    (hd : decode (wordAtPc s) = .unknown u) : step s = .next (bumpPc (execUnknown (wordAtPc s) (s'.setAdvance true))) := by
  have hpc : s'.pc = s.pc := by rw [executorTurn_frame turn]
  rw [step_of_executorTurn turn, cycle_of_unknown (hpc ▸ hp) ((fetchDecode_of_executorTurn turn).trans hd),
    decode_unknown_word hd]
  rfl

/-- Settles O7: the classes are those of `decode_unknown_iff`, family 0 being 0x0000–0x0FFF. -/
theorem unknownWordsAreNoOpCycles : Obligations.UnknownWordsAreNoOpCycles := by
  refine ⟨fun w => ?_, fun s s' u turn hp hd => ?_⟩
  · rw [← fieldOp_eq_zero_iff]
    exact decode_unknown_iff w
  · rw [step_of_unknown turn hp hd, executorTurn_frame turn]
    rfl

end Sys2Proof.Machine

/-! Proofs of the family 40_cycle.md. When the stack is full, when no key is down, and where a fetched skip leaves the pc are
each said once; the obligations follow. -/

namespace Sys2Proof.Machine

/-! ### The advance -/

/-- Full is exactly at the bound, not past it (42_flow.md R162; log 22). -/
theorem stackFull_iff (s : State) : stackFull s = true ↔ s.params.stackDepth = some s.stack.length := by
  unfold stackFull
  split
  · next hd => simp [hd]
  · next d hd => rw [hd, beq_iff_eq, Option.some_inj, eq_comm]

theorem lowestKey_eq_none_iff_keySlot (s : State) : lowestKey s = none ↔ ∀ k : Nibble, keySlot k s = false := by
  rw [lowestKey_eq_none]
  exact ⟨fun h k => h k.toNat k.isLt, fun h k hk => h (BitVec.ofFin ⟨k, hk⟩)⟩

/-- Settles O57: the five instructions that may clear `advance` by their cases; it is outside the footprint of the rest. -/
theorem exactlyTheJumpsSuppressTheAdvance : Obligations.ExactlyTheJumpsSuppressTheAdvance := by
  intro i s t hs h
  cases i with
  | ret =>
    obtain ⟨hst, rfl⟩ | ⟨target, rest, hst, rfl⟩ := exec_ret_cases h
    · simp [hs, hst]
    · simp [hst]
  | jp nnn => cases h; simp
  | call nnn =>
    obtain ⟨hfull, rfl⟩ | ⟨hfull, rfl⟩ := exec_call_cases h
    · simp [hs, (stackFull_iff s).mp hfull]
    · have hd : s.params.stackDepth ≠ some s.stack.length := by simp [← stackFull_iff, hfull]
      simp [hd]
  | jpOff nnn x nn => cases h; simp
  | ldVxK x =>
    obtain ⟨k, hk, rfl⟩ | ⟨hk, rfl⟩ := exec_ldVxK_cases h
    · have hdown : ¬ ∀ k : Nibble, keySlot k s = false := by simp [← lowestKey_eq_none_iff_keySlot, hk]
      simpa [hs] using hdown
    · simp [(lowestKey_eq_none_iff_keySlot s).mp hk]
  | _ =>
    have hadv : t.advance = s.advance := (congrArg State.advance (exec_footprint h) :)
    simp [hadv, hs]

/-! ### The cycle -/

/-- Settles O5: `defaultAdvance` is the sum that the statement writes out. -/
theorem stepRunsTheDecodedInstruction : Obligations.StepRunsTheDecodedInstruction := by
  intro s s' t i turn hp hd h
  exact (step_of_known turn hp hd).trans (congrArg (thenNext · defaultAdvance) h)

/-- The skip adds its 2 during Execute and leaves `advance` set, so the default advance adds 2 more (40_cycle.md R126). -/
theorem step_of_skip {s s' : State} {i : Instr} {skips : Bool} (turn : executorTurn s s') (hp : fetchable s.pc)
    (hd : decode (wordAtPc s) = .known i)
    (he : exec i (s'.setAdvance true) = .next (skipIf skips (s'.setAdvance true))) :
    step s = .next { s' with pc := if skips then s.pc + 4 else s.pc + 2, advance := true } := by
  have hpc : s'.pc = s.pc := by rw [executorTurn_frame turn]
  rw [step_of_known turn hp hd, he, ← hpc]
  cases skips with
  | false => rfl
  | true =>
    have h4 : s'.pc + 4 = s'.pc + 2 + 2 := (BitVec.add_assoc s'.pc 2 2).symm
    rw [if_pos rfl, h4]
    rfl

/-- Settles O17: each of the six is a skip on its own condition, which the taken turn does not touch. -/
theorem skipMovesThePcByFour : Obligations.SkipMovesThePcByFour := by
  intro s s' i c turn hp hd hskip
  obtain ⟨skips, hc, he⟩ : ∃ skips, (c ↔ skips = true) ∧
      exec i (s'.setAdvance true) = .next (skipIf skips (s'.setAdvance true)) := by
    rw [executorTurn_frame turn]
    rcases hskip with ⟨x, nn, rfl, hc⟩ | ⟨x, nn, rfl, hc⟩ | ⟨x, y, rfl, hc⟩ | ⟨x, y, rfl, hc⟩ | ⟨x, rfl, hc⟩ | ⟨x, rfl, hc⟩
    · exact ⟨readV x s == nn, hc.trans beq_iff_eq.symm, rfl⟩
    · exact ⟨readV x s != nn, hc.trans bne_iff_ne.symm, rfl⟩
    · exact ⟨readV x s == readV y s, hc.trans beq_iff_eq.symm, rfl⟩
    · exact ⟨readV x s != readV y s, hc.trans bne_iff_ne.symm, rfl⟩
    · exact ⟨keyDown (readV x s) s, hc, rfl⟩
    · exact ⟨!keyDown (readV x s) s, hc.trans (Bool.not_eq_true' _).symm.to_iff, rfl⟩
  refine ⟨_, step_of_skip turn hp hd he, fun h => if_pos (hc.mp h), fun h => if_neg (h ∘ hc.mpr), rfl⟩

end Sys2Proof.Machine

/-! Proofs of the family 41_display.md. What Dxyn does to the grid and to VF is said once, over the cells its sprite covers; the
obligations follow. -/

namespace Sys2Proof

theorem decode_drw (x y n : Nibble) : decode (0xD#4 ++ x ++ y ++ n) = .known (.drw x y n) := by simp [decode]

end Sys2Proof

namespace Sys2Proof.Machine

/-! ### The cells of a sprite -/

/-- A sprite covers the cells that its rows land on (41_display.md R143). -/
theorem spriteCovers_iff_row {s : State} {X0 Y0 n : Nat} {X : Fin 64} {Y : Fin 32} :
    spriteCovers s X0 Y0 n X Y ↔ ∃ i < n, spriteRowCells s X0 Y0 i X Y := by
  simp only [spriteCovers, spriteRowCells, rowCells, pixelTarget_eq_some, List.mem_range]
  constructor
  · rintro ⟨i, hi, j, hj, hb, hbit, hland⟩
    exact ⟨i, hi, hb, j, hj, hbit, hland⟩
  · rintro ⟨i, hi, hb, j, hj, hbit, hland⟩
    exact ⟨i, hi, j, hj, hb, hbit, hland⟩

/-- The cells that Dxyn flips in `s`: those its sprite covers, the origin reduced modulo the grid (R141). -/
def drwCovers (x y n : Nibble) (s : State) : Fin 64 → Fin 32 → Prop :=
  spriteCovers s ((readV x s).toNat % 64) ((readV y s).toNat % 32) n.toNat

/-- Dxyn clears VF and then paints the cells it covers (R141, R144). -/
theorem exec_drw_paints {x y n : Nibble} {s t : State} (h : exec (.drw x y n) s = .next t) :
    Paints (drwCovers x y n s) (writeFlag 0 s) t := by
  obtain rfl := Host.Outcome.next.inj h
  obtain ⟨hpaints, -⟩ := drawRows_spec ((readV x s).toNat % 64) ((readV y s).toNat % 32) (writeFlag 0 s) n.toNat n.isLt.le
  exact hpaints.congr fun _ _ => spriteCovers_iff_row

theorem cell_of_exec_drw {x y n : Nibble} {s t : State} (h : exec (.drw x y n) s = .next t) (X : Fin 64) (Y : Fin 32) :
    cell X Y t = true ↔ (cell X Y s = true ↔ ¬ drwCovers x y n s X Y) :=
  (exec_drw_paints h).cells X Y

/-- A covered cell that was on is a collision (R144). -/
theorem readV_VF_of_drw_hit {x y n : Nibble} {s t : State} (h : exec (.drw x y n) s = .next t)
    (hit : ∃ X Y, drwCovers x y n s X Y ∧ cell X Y s = true) : readV VF t = 1 := by
  obtain ⟨X, Y, hcov, hon⟩ := hit
  exact (exec_drw_paints h).hit X Y hcov hon

theorem readV_VF_of_drw_miss {x y n : Nibble} {s t : State} (h : exec (.drw x y n) s = .next t)
    (miss : ¬ ∃ X Y, drwCovers x y n s X Y ∧ cell X Y s = true) : readV VF t = 0 := by
  have hoff : ∀ X Y, drwCovers x y n s X Y → cell X Y s = false := fun X Y hcov =>
    Bool.eq_false_of_not_eq_true fun hon => miss ⟨X, Y, hcov, hon⟩
  exact ((exec_drw_paints h).miss hoff).trans (readV_writeFlag_VF 0 s)

/-- Settles O10: the grid and VF by the painting, the rest by the frame of Dxyn. -/
theorem drwXorsItsSprite : Obligations.DrwXorsItsSprite := by
  intro x y n s
  obtain ⟨t, h⟩ : ∃ t, exec (.drw x y n) s = .next t := ⟨_, rfl⟩
  obtain ⟨hregs, hdiags, hframe⟩ := exec_drw_spec h
  exact ⟨decode_drw x y n, t, h, cell_of_exec_drw h, readV_VF_of_drw_hit h, readV_VF_of_drw_miss h, hregs,
    exec_byteAt h nofun nofun, hdiags, hframe⟩

/-! ### Drawing twice -/

/-- VF after Dxyn tells exactly of a collision (R144). -/
theorem readV_VF_of_drw_iff {x y n : Nibble} {s t : State} (h : exec (.drw x y n) s = .next t) :
    readV VF t = 1 ↔ ∃ X Y, drwCovers x y n s X Y ∧ cell X Y s = true := by
  refine ⟨fun hvf => ?_, readV_VF_of_drw_hit h⟩
  by_contra miss
  rw [readV_VF_of_drw_miss h miss] at hvf
  exact absurd hvf (by decide)

/-- A draw whose origin is not in VF leaves the next draw of the same sprite the same cells. -/
theorem drwCovers_of_exec_drw {x y n : Nibble} {s t : State} (h : exec (.drw x y n) s = .next t) (hx : x ≠ VF) (hy : y ≠ VF) :
    drwCovers x y n t = drwCovers x y n s := by
  obtain ⟨hregs, -, hframe⟩ := exec_drw_spec h
  unfold drwCovers
  rw [hregs x hx, hregs y hy, hframe]
  rfl

/-- Settles O11: the second draw flips the same cells back, and collides with those the first turned on. -/
theorem drawingTwiceRestoresTheGrid : Obligations.DrawingTwiceRestoresTheGrid := by
  intro x y n s hx hy
  obtain ⟨t, ht⟩ : ∃ t, exec (.drw x y n) s = .next t := ⟨_, rfl⟩
  obtain ⟨u, hu⟩ : ∃ u, exec (.drw x y n) t = .next u := ⟨_, rfl⟩
  have hcov := drwCovers_of_exec_drw ht hx hy
  refine ⟨t, u, ht, hu, fb_ext fun X Y => ?_, ?_⟩
  · have hfirst := cell_of_exec_drw ht X Y
    have hsecond := cell_of_exec_drw hu X Y
    rw [hcov] at hsecond
    rw [Bool.eq_iff_iff]
    tauto
  · rw [readV_VF_of_drw_iff hu, hcov]
    refine exists_congr fun X => exists_congr fun Y => and_congr_left fun hon => ?_
    have hflip := (cell_of_exec_drw ht X Y).mp hon
    rw [← Bool.not_eq_true]
    tauto

/-! ### Clearing -/

/-- Settles O9: every cell of the replicated grid is 0, and CLS leaves the pc to the default advance. -/
theorem clsClearsTheGrid : Obligations.ClsClearsTheGrid := by
  refine ⟨rfl, fun s => ⟨clearGrid s, rfl, fun X Y => cell_clearGrid X Y s, fun _ => rfl, rfl⟩, fun s s' turn hp hw => ?_⟩
  have hd : decode (wordAtPc s) = .known .cls := hw ▸ rfl
  have hpc : s'.pc = s.pc := by rw [executorTurn_frame turn]
  refine ⟨_, step_of_known turn hp hd, ?_⟩
  rw [← hpc]
  exact defaultAdvance_pc (s := clearGrid (s'.setAdvance true)) rfl

end Sys2Proof.Machine

/-! Proofs of the family 42_flow.md. Where each target lies as a natural number, and what RET and CALL do on each kind of
stack, are each said once; the obligations follow. -/

namespace Sys2Proof.Machine

/-! ### Targets -/

@[simp] theorem zextNNN_toNat (nnn : Addr12) : (zextNNN nnn).toNat = nnn.toNat :=
  BitVec.toNat_setWidth_of_le (by decide)

@[simp] theorem zextByte_toNat (b : Byte) : (zextByte b).toNat = b.toNat :=
  BitVec.toNat_setWidth_of_le (by decide)

/-- At most 0xFFF + 0xFF: the legacy sum does not wrap (42_flow.md R163). -/
theorem offsetTarget_toNat_of_legacy {s : State} (nnn : Addr12) (x : Nibble) (nn : Byte)
    (h : s.quirks.jumpWithOffsetLegacy = true) : (offsetTarget nnn x nn s).toNat = nnn.toNat + (readV 0 s).toNat := by
  have hlt : nnn.toNat + (readV 0 s).toNat < 2 ^ 16 := by omega
  rw [offsetTarget, if_pos h, BitVec.toNat_add, zextNNN_toNat, zextByte_toNat, Nat.mod_eq_of_lt hlt]

/-- At most 0xF + 0xFF + 0xFF: the literal sum does not wrap (R163; C1). -/
theorem offsetTarget_toNat_of_literal {s : State} (nnn : Addr12) (x : Nibble) (nn : Byte)
    (h : s.quirks.jumpWithOffsetLegacy = false) :
    (offsetTarget nnn x nn s).toNat = x.toNat + nn.toNat + (readV x s).toNat := by
  have hx : (x.setWidth 16).toNat = x.toNat := BitVec.toNat_setWidth_of_le (by decide)
  have hlt : x.toNat + nn.toNat + (readV x s).toNat < 2 ^ 16 := by omega
  rw [offsetTarget, if_neg (by simp [h]), BitVec.toNat_add, BitVec.toNat_add, hx, zextByte_toNat, zextByte_toNat,
    Nat.mod_add_mod, Nat.mod_eq_of_lt hlt]

/-- A fetchable pc is its own low 12 bits, zero-extended. -/
theorem zextNNN_low12_of_fetchable {pc : Word} (h : fetchable pc) : zextNNN (pc.extractLsb' 0 12) = pc := by
  have hlt : pc.toNat < 2 ^ 12 := Nat.lt_of_le_of_lt h (by decide)
  apply BitVec.eq_of_toNat_eq
  rw [zextNNN_toNat, BitVec.extractLsb'_toNat, Nat.shiftRight_zero, Nat.mod_eq_of_lt hlt]

/-! ### The stack instructions on each kind of stack -/

theorem exec_ret_of_empty {s : State} (h : s.stack = []) : exec .ret s = .next (raiseHere .stackUnderflow none none s) := by
  change execRet s = _
  rw [execRet, h]

theorem exec_ret_of_cons {s : State} {target : Word} {rest : List Word} (h : s.stack = target :: rest) :
    exec .ret s = .next (jump target (s.setStack rest)) := by
  change execRet s = _
  rw [execRet, h]

theorem exec_call_of_full {s : State} (nnn : Addr12) (h : s.params.stackDepth = some s.stack.length) :
    exec (.call nnn) s = .next (raiseHere .stackOverflow none none s) :=
  if_pos ((stackFull_iff s).mpr h)

theorem exec_call_of_not_full {s : State} (nnn : Addr12) (h : s.params.stackDepth ≠ some s.stack.length) :
    exec (.call nnn) s = .next (jump (zextNNN nnn) (push (s.pc + 2) s)) :=
  if_neg (h ∘ (stackFull_iff s).mp)

/-! ### The obligations -/

/-- Settles O12: RET on a stack with an entry, and on the empty one. -/
theorem retPopsTheReturnAddress : Obligations.RetPopsTheReturnAddress :=
  ⟨decodeInvertsEncode .ret rfl, fun _ _ _ => exec_ret_of_cons, fun _ => exec_ret_of_empty⟩

/-- Settles O13: the target's value is that of nnn. -/
theorem jpSetsThePc : Obligations.JpSetsThePc := fun nnn s =>
  ⟨decodeInvertsEncode (.jp nnn) rfl, jump (zextNNN nnn) s, rfl, zextNNN_toNat nnn, rfl⟩

/-- Settles O14: CALL on a stack that is not full, and on a full one. -/
theorem callPushesTheReturnAddress : Obligations.CallPushesTheReturnAddress := fun nnn _ =>
  ⟨decodeInvertsEncode (.call nnn) rfl,
    fun h => ⟨_, exec_call_of_not_full nnn h, zextNNN_toNat nnn, rfl, rfl⟩,
    exec_call_of_full nnn⟩

/-- Settles O15: the target under each setting of the quirk. -/
theorem jpOffFollowsItsQuirk : Obligations.JpOffFollowsItsQuirk := by
  refine ⟨fun nnn => ?_, fun nnn x nn s => ?_⟩
  · exact decodeInvertsEncode (.jpOff nnn _ _) (by simp [Instr.wellFormed])
  · exact ⟨jump (offsetTarget nnn x nn s) s, rfl, offsetTarget_toNat_of_legacy nnn x nn,
      offsetTarget_toNat_of_literal nnn x nn, rfl⟩

/-- Settles O59: JP clears `advance` and sets the pc to its own nnn, which a fetchable pc already is. -/
theorem selfJumpChangesNothing : Obligations.SelfJumpChangesNothing := by
  rintro s s' turn ⟨hp, hw⟩
  have hd : decode (wordAtPc s) = .known (.jp (s.pc.extractLsb' 0 12)) := hw ▸ decodeInvertsEncode (.jp _) rfl
  have hpc : s'.pc = s.pc := by rw [executorTurn_frame turn]
  have hjump : step s = .next (jump (zextNNN (s.pc.extractLsb' 0 12)) (s'.setAdvance true)) := step_of_known turn hp hd
  rw [hjump, zextNNN_low12_of_fetchable hp, ← hpc]
  rfl

end Sys2Proof.Machine

/-! Proofs of the family 43_skip.md. The state after a skip, and after one on the opposite condition, are each said once; the
obligation follows. -/

namespace Sys2Proof.Machine

theorem skipIf_eq_ite (c : Bool) (s : State) : skipIf c s = if c then { s with pc := s.pc + 2 } else s := rfl

theorem skipIf_not (c : Bool) (s : State) : skipIf (!c) s = if c then s else { s with pc := s.pc + 2 } := by
  cases c <;> rfl

theorem skipIf_beq (a b : Byte) (s : State) : skipIf (a == b) s = if a = b then { s with pc := s.pc + 2 } else s := by
  simp only [skipIf_eq_ite, beq_iff_eq]

theorem skipIf_bne (a b : Byte) (s : State) : skipIf (a != b) s = if a = b then s else { s with pc := s.pc + 2 } := by
  simp only [bne, skipIf_not, beq_iff_eq]

/-- Settles O16: two of the four skip on equal bytes, two on different ones. -/
theorem skipsCompareRegisters : Obligations.SkipsCompareRegisters :=
  ⟨fun x nn s => ⟨decodeInvertsEncode (.seImm x nn) rfl, congrArg Host.Outcome.next (skipIf_beq (readV x s) nn s)⟩,
    fun x nn s => ⟨decodeInvertsEncode (.sneImm x nn) rfl, congrArg Host.Outcome.next (skipIf_bne (readV x s) nn s)⟩,
    fun x y s => ⟨decodeInvertsEncode (.seReg x y) rfl, congrArg Host.Outcome.next (skipIf_beq (readV x s) (readV y s) s)⟩,
    fun x y s => ⟨decodeInvertsEncode (.sneReg x y) rfl, congrArg Host.Outcome.next (skipIf_bne (readV x s) (readV y s) s)⟩⟩

end Sys2Proof.Machine

/-! Proofs of the family 44_alu.md. What one register write, and a result followed by its flag, leave unchanged, the value of
each result and each flag, and what the shifts reduce to are each said once; the obligations follow. -/

namespace Sys2Proof.Machine

/-! ### The frame of a result, and of a result with its flag -/

theorem onlyRegsChange_writeV (x : Nibble) (b : Byte) (s : State) : onlyRegsChange (· = x) s (writeV x b s) :=
  ⟨fun _ hr => readV_writeV_ne b s hr, fun _ => rfl, rfl⟩

theorem onlyRegsChange_writeFlag_writeV (x : Nibble) (flag b : Byte) (s : State) :
    onlyRegsChange (fun r => r = x ∨ r = VF) s (writeFlag flag (writeV x b s)) :=
  ⟨fun _ hr => readV_writeFlag_writeV_ne flag b s hr, fun _ => rfl, rfl⟩

/-- The flag is written after the result, and leaves it unless the destination is VF itself (R22). -/
theorem readV_writeFlag_writeV_self {x : Nibble} (flag b : Byte) (s : State) (h : x ≠ VF) :
    readV x (writeFlag flag (writeV x b s)) = b := by
  rw [readV_writeFlag_ne flag _ h, readV_writeV_self]

/-! ### Results and flags as numbers -/

/-- The difference modulo 256, of the operands as integers (R207, R209). -/
theorem toNat_sub_eq_int_mod (a b : Byte) : ((a - b).toNat : Int) = (a.toNat - b.toNat : Int) % 256 := by
  rw [BitVec.toNat_sub]
  omega

theorem flagByte_toNat (c : Bool) : (flagByte c).toNat = if c then 1 else 0 := by
  cases c <;> rfl

theorem carry_toNat (a b : Byte) : (carry a b).toNat = if a.toNat + b.toNat > 255 then 1 else 0 := by
  simp only [carry, flagByte_toNat, decide_eq_true_eq]

theorem noBorrow_toNat (a b : Byte) : (noBorrow a b).toNat = if a.toNat ≥ b.toNat then 1 else 0 := by
  simp only [noBorrow, flagByte_toNat, decide_eq_true_eq]

theorem shiftedOutRight_toNat (a : Byte) : (shiftedOutRight a).toNat = a.toNat % 2 := by
  rw [shiftedOutRight, BitVec.toNat_and]
  exact Nat.and_one_is_mod _

/-- A byte shifted right by 7 is its bit 7 already; the mask removes nothing. -/
theorem shiftedOutLeft_toNat (a : Byte) : (shiftedOutLeft a).toNat = a.toNat / 128 := by
  have hmask : (shiftedOutLeft a).toNat = a.toNat / 2 ^ 7 % 2 := by
    rw [shiftedOutLeft, BitVec.toNat_and, BitVec.toNat_ushiftRight, Nat.shiftRight_eq_div_pow]
    exact Nat.and_one_is_mod _
  omega

theorem toNat_ushiftRight_one (a : Byte) : (a >>> 1).toNat = a.toNat / 2 := by
  rw [BitVec.toNat_ushiftRight, Nat.shiftRight_one]

theorem toNat_shiftLeft_one (a : Byte) : (a <<< 1).toNat = a.toNat * 2 % 256 := by
  rw [BitVec.toNat_shiftLeft, Nat.shiftLeft_eq]

/-! ### The shifts -/

/-- What V[x] holds once the quirk's source is chosen. -/
theorem readV_shiftSource (x y : Nibble) (s : State) : readV x (shiftSource x y s) = shiftOperand x y s := by
  unfold shiftSource shiftOperand
  split
  · exact readV_writeV_self x _ s
  · rfl

theorem writeV_writeV (x : Nibble) (a b : Byte) (s : State) : writeV x b (writeV x a s) = writeV x b s := by
  simp [writeV, State.setV]

/-- The result overwrites the copy of V[y] that the quirk put in V[x]. -/
theorem writeV_shiftSource (x y : Nibble) (b : Byte) (s : State) : writeV x b (shiftSource x y s) = writeV x b s := by
  unfold shiftSource
  split
  · exact writeV_writeV x _ b s
  · rfl

theorem exec_shr_eq (x y : Nibble) (s : State) : exec (.shr x y) s =
    .next (writeFlag (shiftedOutRight (shiftOperand x y s)) (writeV x (shiftOperand x y s >>> 1) s)) := by
  change execShr x y s = _
  rw [execShr, readV_shiftSource, writeV_shiftSource]

theorem exec_shl_eq (x y : Nibble) (s : State) : exec (.shl x y) s =
    .next (writeFlag (shiftedOutLeft (shiftOperand x y s)) (writeV x (shiftOperand x y s <<< 1) s)) := by
  change execShl x y s = _
  rw [execShl, readV_shiftSource, writeV_shiftSource]

/-! ### The obligations -/

/-- Settles O18: one register write of nn. -/
theorem ldImmLoadsTheImmediate : Obligations.LdImmLoadsTheImmediate := fun x nn s =>
  ⟨decodeInvertsEncode (.ldImm x nn) rfl, writeV x nn s, rfl, readV_writeV_self x nn s, onlyRegsChange_writeV x nn s⟩

/-- Settles O19: one register write of the sum, with no flag after it. -/
theorem addImmWrapsWithoutFlag : Obligations.AddImmWrapsWithoutFlag := by
  intro x nn s
  refine ⟨decodeInvertsEncode (.addImm x nn) rfl, writeV x (readV x s + nn) s, rfl, ?_, onlyRegsChange_writeV x _ s⟩
  rw [readV_writeV_self, BitVec.toNat_add]

/-- Settles O20: one register write of V[y]. -/
theorem ldRegCopiesARegister : Obligations.LdRegCopiesARegister := fun x y s =>
  ⟨decodeInvertsEncode (.ldReg x y) rfl, writeV x (readV y s) s, rfl, readV_writeV_self x _ s, onlyRegsChange_writeV x _ s⟩

/-- Settles O21: one register write each, of the bitwise result. -/
theorem logicIsBitwiseWithoutFlag : Obligations.LogicIsBitwiseWithoutFlag := by
  intro x y s
  refine ⟨⟨decodeInvertsEncode (.orReg x y) rfl, writeV x (readV x s ||| readV y s) s, rfl, fun k _ => ?_,
      onlyRegsChange_writeV x _ s⟩,
    ⟨decodeInvertsEncode (.andReg x y) rfl, writeV x (readV x s &&& readV y s) s, rfl, fun k _ => ?_,
      onlyRegsChange_writeV x _ s⟩,
    ⟨decodeInvertsEncode (.xorReg x y) rfl, writeV x (readV x s ^^^ readV y s) s, rfl, fun k _ => ?_,
      onlyRegsChange_writeV x _ s⟩⟩
  · rw [readV_writeV_self, BitVec.getLsbD_or]
  · rw [readV_writeV_self, BitVec.getLsbD_and]
  · rw [readV_writeV_self, BitVec.getLsbD_xor]

/-- Settles O22: the sum, then the carry. -/
theorem addRegSetsTheCarry : Obligations.AddRegSetsTheCarry := by
  intro x y s
  refine ⟨decodeInvertsEncode (.addReg x y) rfl, _, rfl, fun hx => ?_, ?_, onlyRegsChange_writeFlag_writeV x _ _ s⟩
  · rw [readV_writeFlag_writeV_self _ _ s hx, BitVec.toNat_add]
  · rw [readV_writeFlag_VF, carry_toNat]

/-- Settles O23: the difference, then no-borrow; SUBN has minuend and subtrahend swapped. -/
theorem subtractionsSetNoBorrow : Obligations.SubtractionsSetNoBorrow := by
  intro x y s
  refine ⟨⟨decodeInvertsEncode (.sub x y) rfl, _, rfl, fun hx => ?_, ?_, onlyRegsChange_writeFlag_writeV x _ _ s⟩,
    ⟨decodeInvertsEncode (.subn x y) rfl, _, rfl, fun hx => ?_, ?_, onlyRegsChange_writeFlag_writeV x _ _ s⟩⟩
  · rw [readV_writeFlag_writeV_self _ _ s hx, toNat_sub_eq_int_mod]
  · rw [readV_writeFlag_VF, noBorrow_toNat]
  · rw [readV_writeFlag_writeV_self _ _ s hx, toNat_sub_eq_int_mod]
  · rw [readV_writeFlag_VF, noBorrow_toNat]

/-- Settles O24: half the operand, then its bit 0. -/
theorem shrShiftsOutBitZero : Obligations.ShrShiftsOutBitZero := by
  intro x y s
  refine ⟨decodeInvertsEncode (.shr x y) rfl, _, exec_shr_eq x y s, fun hx => ?_, ?_,
    onlyRegsChange_writeFlag_writeV x _ _ s⟩
  · rw [readV_writeFlag_writeV_self _ _ s hx, toNat_ushiftRight_one]
  · rw [readV_writeFlag_VF, shiftedOutRight_toNat]

/-- Settles O25: twice the operand, then its bit 7. -/
theorem shlShiftsOutBitSeven : Obligations.ShlShiftsOutBitSeven := by
  intro x y s
  refine ⟨decodeInvertsEncode (.shl x y) rfl, _, exec_shl_eq x y s, fun hx => ?_, ?_,
    onlyRegsChange_writeFlag_writeV x _ _ s⟩
  · rw [readV_writeFlag_writeV_self _ _ s hx, toNat_shiftLeft_one]
  · rw [readV_writeFlag_VF, shiftedOutLeft_toNat]

/-- Settles O26: the counter moves past the draw, and one register write takes the masked byte. -/
theorem rndMasksOneDraw : Obligations.RndMasksOneDraw := by
  intro x nn s
  have hread : readV x (writeV x (Config.randomByte s.draws &&& nn) (s.setDraws (s.draws + 1))) =
    Config.randomByte s.draws &&& nn := readV_writeV_self x _ _
  refine ⟨decodeInvertsEncode (.rnd x nn) rfl, _, rfl, hread, fun h0 => ?_, fun hFF => ?_,
    fun _ hr => readV_writeV_ne _ (s.setDraws _) hr, fun _ => rfl, rfl⟩
  · rw [hread, h0]
    exact BitVec.and_zero
  · rw [hread, hFF]
    exact BitVec.and_allOnes

end Sys2Proof.Machine

/-! Proofs of the family 45_index_memory.md. The addresses and the last I of a transfer, the bytes that Fx55 keeps, and what Fx65
leaves in each register are each said once; the obligations follow. -/

namespace Sys2Proof.Machine

/-! ### The address of a byte, and I after the transfer -/

/-- The transfer's addresses depend on I and on `store_increment_ir` alone. -/
theorem transferAddress_congr {s t : State} (hq : t.quirks = s.quirks) (hi : t.i = s.i) (k : Nat) :
    transferAddress t k = transferAddress s k := by
  rw [transferAddress, transferAddress, hq, hi]

theorem indexAfter_congr {s t : State} (hq : t.quirks = s.quirks) (hi : t.i = s.i) (n : Nat) :
    indexAfter t n = indexAfter s n := by
  rw [indexAfter, indexAfter, hq, hi]

/-- Where I does not wrap, it has moved by `n` under `store_increment_ir` and not at all without it. -/
theorem indexAfter_toNat_of_lt {s : State} {n : Nat} (h : s.i.toNat + n < 65536) :
    (indexAfter s n).toNat = if s.quirks.storeIncrementIr then s.i.toNat + n else s.i.toNat := by
  unfold indexAfter
  split
  · rw [BitVec.toNat_add, BitVec.toNat_ofNat, Nat.add_mod_mod, Nat.mod_eq_of_lt h]
  · rfl

/-! ### Fx55 -/

/-- The bytes that Fx55 does not store to (45_index_memory.md R234). -/
theorem byteAt_of_exec_ldMemVx_ne {x : Nibble} {s t : State} (h : exec (.ldMemVx x) s = .next t) {a : Nat}
    (ha : ∀ k ≤ x.toNat, inBounds (transferAddress s k) → a ≠ transferAddress s k) : byteAt a t = byteAt a s := by
  obtain rfl := Host.Outcome.next.inj h
  obtain ⟨-, hkept, -⟩ := storeV_fold s (x.toNat + 1) x.isLt
  exact hkept a fun k hk => ha k (Nat.le_of_lt_succ hk)

/-- Settles O31: each byte of memory is one that Fx55 stores to or one that it leaves. -/
theorem ldMemVxStoresTheRegisters : Obligations.LdMemVxStoresTheRegisters := by
  intro x s
  obtain ⟨t, h⟩ : ∃ t, exec (.ldMemVx x) s = .next t := ⟨_, rfl⟩
  exact ⟨decode_ldMemVx x, t, h, fun _ hk hb => byteAt_of_exec_ldMemVx h hk hb,
    fun _ ha => byteAt_of_exec_ldMemVx_ne h ha, exec_ldMemVx_spec h⟩

/-! ### Fx65 -/

/-- The registers that Fx65 reaches: an out-of-bounds byte leaves its own unchanged (R235; D8). -/
theorem readV_of_exec_ldVxMem {x k : Nibble} {s t : State} (h : exec (.ldVxMem x) s = .next t) (hk : k.toNat ≤ x.toNat) :
    readV k t =
      if inBounds (transferAddress s k.toNat) then byteAt (transferAddress s k.toNat) s else readV k s := by
  obtain rfl := Host.Outcome.next.inj h
  obtain ⟨hloaded, -⟩ := loadV_fold s (x.toNat + 1) x.isLt
  have hkt := hloaded k.toNat (Nat.lt_succ_of_le hk)
  rwa [BitVec.ofNat_toNat, BitVec.setWidth_eq] at hkt

/-- Settles O32: each register is one that Fx65 loads, one whose byte is out of bounds, or one above x. -/
theorem ldVxMemLoadsTheRegisters : Obligations.LdVxMemLoadsTheRegisters := by
  intro x s
  obtain ⟨t, h⟩ : ∃ t, exec (.ldVxMem x) s = .next t := ⟨_, rfl⟩
  obtain ⟨habove, hi, hdiags, hframe⟩ := exec_ldVxMem_spec h
  refine ⟨decodeInvertsEncode (.ldVxMem x) rfl, t, h, fun k hk hb => ?_, fun k hk hb => ?_, habove,
    exec_byteAt h nofun nofun, hi, hdiags, hframe⟩
  · rw [readV_of_exec_ldVxMem h hk, if_pos hb]
  · rw [readV_of_exec_ldVxMem h hk, if_neg hb]

/-! ### Fx55, then Fx65 -/

/-- Settles O33: Fx55 keeps QUIRKS, so once I is put back Fx65 reads the very addresses that Fx55 stored to. -/
theorem storeThenLoadRestoresTheRegisters : Obligations.StoreThenLoadRestoresTheRegisters := by
  intro x s regs hx
  obtain ⟨t, ht⟩ : ∃ t, exec (.ldMemVx x) s = .next t := ⟨_, rfl⟩
  obtain ⟨u, hu⟩ : ∃ u, exec (.ldVxMem x) { t with v := regs, i := s.i } = .next u := ⟨_, rfl⟩
  obtain ⟨hti, -, htframe⟩ := exec_ldMemVx_spec ht
  obtain ⟨-, hui, -, -⟩ := exec_ldVxMem_spec hu
  have hq : t.quirks = s.quirks := by rw [htframe]
  have haddr := transferAddress_congr (t := { t with v := regs, i := s.i }) hq rfl
  have hindex := indexAfter_congr (t := { t with v := regs, i := s.i }) hq rfl
  refine ⟨t, u, ht, hu, fun r hr => ?_, ?_, ?_⟩
  · have hb : inBounds (transferAddress s r.toNat) := by rw [transferAddress_of_lt (by omega)]; omega
    rw [readV_of_exec_ldVxMem hu hr, haddr, if_pos hb]
    exact (byteAt_of_exec_ldMemVx ht hr hb :)
  · rw [hui, hti, hindex]
  · rw [hti, indexAfter_toNat_of_lt (by omega)]
    rfl

/-! ### Annn, Fx1E, Fx29 -/

/-- Settles O27: I takes the value of nnn. -/
theorem ldISetsTheIndex : Obligations.LdISetsTheIndex := fun nnn s =>
  ⟨decodeInvertsEncode (.ldI nnn) rfl, s.setI (zextNNN nnn), rfl, zextNNN_toNat nnn, fun _ => rfl, rfl⟩

/-- Settles O28: the sum past 0xFFF, reduced and flagged, and the sum inside the address space. -/
theorem addIWrapsPastTheAddressSpace : Obligations.AddIWrapsPastTheAddressSpace := by
  intro x s
  refine ⟨decodeInvertsEncode (.addI x) rfl, ?_⟩
  by_cases hsum : s.i.toNat + (readV x s).toNat > 0xFFF
  · refine ⟨_, if_pos hsum, fun _ => ⟨?_, readV_writeFlag_VF 1 _, fun _ hr => readV_writeFlag_ne 1 _ hr⟩,
      fun hle => absurd hsum (Nat.not_lt.mpr hle), fun _ => rfl, rfl⟩
    rw [writeFlag_i, State.setI_i, BitVec.toNat_ofNat, Nat.mod_eq_of_lt (by omega)]
  · refine ⟨_, if_neg hsum, fun hgt => absurd hgt hsum, fun _ => ⟨?_, fun _ => rfl⟩, fun _ => rfl, rfl⟩
    rw [State.setI_i, BitVec.toNat_ofNat, Nat.mod_eq_of_lt (by omega)]

/-- The low nibble times 5 is at most 75: the product does not wrap (R232). -/
theorem glyphAddress_toNat (b : Byte) : (glyphAddress b).toNat = b.toNat % 16 * 5 := by
  have hlow : (b &&& 0x0F).toNat = b.toNat % 16 := by
    rw [BitVec.toNat_and]
    exact Nat.and_two_pow_sub_one_eq_mod b.toNat 4
  have hlt : b.toNat % 16 * 5 < 2 ^ 16 := by omega
  rw [glyphAddress, BitVec.toNat_mul, zextByte_toNat, hlow]
  exact Nat.mod_eq_of_lt hlt

/-- Settles O29: I takes the address of the glyph. -/
theorem ldFPointsAtTheGlyph : Obligations.LdFPointsAtTheGlyph := fun x s =>
  ⟨decodeInvertsEncode (.ldF x) rfl, s.setI (glyphAddress (readV x s)), rfl, glyphAddress_toNat _, fun _ => rfl, rfl⟩

end Sys2Proof.Machine

/-! Proofs of the family 46_timer_keyboard.md. What a key index of either kind reads, which slot is the lowest pressed, and what
Fx0A does with and without one are each said once; the obligations follow. -/

namespace Sys2Proof.Machine

/-! ### Ex9E, ExA1 -/

theorem setWidth_low_nibble (b : Byte) : b.setWidth 4 = BitVec.ofNat 4 (b.toNat % 16) := by
  apply BitVec.eq_of_toNat_eq
  rw [BitVec.toNat_setWidth, BitVec.toNat_ofNat, Nat.mod_mod]

theorem setWidth_masked_nibble (b : Byte) : (b &&& 0x0F).setWidth 4 = b.setWidth 4 := by
  rw [BitVec.setWidth_and]
  exact BitVec.and_allOnes

/-- An index of one slot, and any index under KEY_OOR = mask, reads the slot of its low nibble (R266). -/
theorem keyDown_of_slot {b : Byte} {s : State} (h : b.toNat ≤ 0xF ∨ s.params.keyOor = .mask) :
    keyDown b s = keySlot (BitVec.ofNat 4 (b.toNat % 16)) s := by
  unfold keyDown
  rw [← setWidth_low_nibble]
  split
  · rfl
  · next hb => rw [h.resolve_left hb, setWidth_masked_nibble]

/-- Under KEY_OOR = released an index of 16 or more reads as released (R266). -/
theorem keyDown_of_released {b : Byte} {s : State} (hb : b.toNat > 0xF) (hr : s.params.keyOor = .released) :
    keyDown b s = false := by
  unfold keyDown
  rw [if_neg (Nat.not_le.mpr hb), hr]

/-- Settles O34: both skip on `keyDown`, whose two cases are those of KEY_OOR. -/
theorem keySkipsFollowTheKey : Obligations.KeySkipsFollowTheKey := by
  intro x s
  have hskp : exec (.skp x) s = .next (skipIf (keyDown (readV x s) s) s) := rfl
  have hsknp : exec (.sknp x) s = .next (skipIf (!keyDown (readV x s) s) s) := rfl
  refine ⟨decodeInvertsEncode (.skp x) rfl, decodeInvertsEncode (.sknp x) rfl, fun h => ?_, fun hb hr => ?_⟩
  · rw [hskp, hsknp, keyDown_of_slot h, skipIf_not]
    exact ⟨rfl, rfl⟩
  · rw [hskp, hsknp, keyDown_of_released hb hr]
    exact ⟨rfl, rfl⟩

/-! ### Fx07, Fx15, Fx18 -/

/-- Settles O35: one register write, and two timer writes that leave memory alone. -/
theorem timerMovesCopyOneByte : Obligations.TimerMovesCopyOneByte := fun x s =>
  ⟨⟨decodeInvertsEncode (.ldVxDt x) rfl, writeV x s.dt s, rfl, readV_writeV_self x s.dt s, onlyRegsChange_writeV x s.dt s⟩,
    ⟨decodeInvertsEncode (.ldDtVx x) rfl, s.setDt (readV x s), rfl, rfl, fun _ => rfl, rfl⟩,
    ⟨decodeInvertsEncode (.ldStVx x) rfl, s.setSt (readV x s), rfl, rfl, fun _ => rfl, rfl⟩⟩

/-! ### Fx0A -/

/-- A pressed slot below which no slot is pressed is the one that the scan finds (R263). -/
theorem lowestKey_of_keySlot {s : State} {k : Nibble} (hk : keySlot k s = true)
    (hlow : ∀ j : Nibble, j.toNat < k.toNat → keySlot j s = false) : lowestKey s = some k.toNat := by
  refine List.findIdx?_eq_some_iff_getElem.mpr ⟨by simpa using k.isLt, by simpa [keySlot] using hk, fun j hj => ?_⟩
  have hfalse : keySlot (BitVec.ofFin ⟨j, hj.trans k.isLt⟩) s = false := hlow _ hj
  simpa [keySlot] using hfalse

theorem exec_ldVxK_of_pressed {s : State} {k : Nat} (x : Nibble) (h : lowestKey s = some k) :
    exec (.ldVxK x) s = .next (writeV x (BitVec.ofNat 8 k) s) := by
  change execLdVxK x s = _
  rw [execLdVxK, h]

theorem exec_ldVxK_of_none {s : State} (x : Nibble) (h : ∀ k : Nibble, keySlot k s = false) :
    exec (.ldVxK x) s = .next (hold s) := by
  change execLdVxK x s = _
  rw [execLdVxK, (lowestKey_eq_none_iff_keySlot s).mpr h]

/-- Settles O36: the scan finds the lowest pressed slot, whose index fits a byte, or finds none. -/
theorem ldVxKTakesTheLowestKey : Obligations.LdVxKTakesTheLowestKey := by
  refine fun x s => ⟨decodeInvertsEncode (.ldVxK x) rfl, fun k hk hlow => ?_, exec_ldVxK_of_none x⟩
  refine ⟨_, exec_ldVxK_of_pressed x (lowestKey_of_keySlot hk hlow), ?_, onlyRegsChange_writeV x _ s⟩
  have hbyte : k.toNat < 256 := by omega
  rw [readV_writeV_self, BitVec.toNat_ofNat, Nat.mod_eq_of_lt hbyte]

/-- Settles O37: the taken turn leaves the keyboard, and the held `advance` suppresses the default advance. -/
theorem waitingForAKeyRunsAgain : Obligations.WaitingForAKeyRunsAgain := by
  intro s s' x turn hp hw hnone
  have hd : decode (wordAtPc s) = .known (.ldVxK x) := hw ▸ decodeInvertsEncode (.ldVxK x) rfl
  have hnone' : ∀ k : Nibble, keySlot k (s'.setAdvance true) = false := by
    rw [executorTurn_frame turn]
    exact hnone
  rw [step_of_known turn hp hd, exec_ldVxK_of_none x hnone']
  rfl

end Sys2Proof.Machine

/-! Proofs of the family 60_exceptions.md. That every instruction answers a next state, that none reads the control state, and in
which control states each turn has an effect are each said once; the obligations follow. -/

namespace Sys2Proof.Machine

/-! ### Every step answers a next state -/

/-- The four instructions with more than one outcome by their cases; any other has one, a next state (60_exceptions.md R300). -/
theorem exec_answers (i : Instr) (s : State) : ∃ t, exec i s = .next t := by
  cases i with
  | ret =>
    cases hs : s.stack with
    | nil => exact ⟨_, exec_ret_of_empty hs⟩
    | cons => exact ⟨_, exec_ret_of_cons hs⟩
  | call nnn =>
    by_cases hfull : s.params.stackDepth = some s.stack.length
    · exact ⟨_, exec_call_of_full nnn hfull⟩
    · exact ⟨_, exec_call_of_not_full nnn hfull⟩
  | ldVxK x =>
    cases hk : lowestKey s with
    | none => exact ⟨_, exec_ldVxK_of_none x ((lowestKey_eq_none_iff_keySlot s).mp hk)⟩
    | some k => exact ⟨_, exec_ldVxK_of_pressed x hk⟩
  | addI x =>
    by_cases hsum : s.i.toNat + (readV x s).toNat > 0xFFF
    · exact ⟨_, if_pos hsum⟩
    · exact ⟨_, if_neg hsum⟩
  | _ => exact ⟨_, rfl⟩

theorem cycle_answers (s : State) : ∃ t, cycle s = .next t := by
  by_cases hp : fetchable s.pc
  · cases hd : fetchDecode s with
    | unknown w => exact ⟨_, cycle_of_unknown hp hd⟩
    | known i =>
      obtain ⟨u, hu⟩ := exec_answers i (s.setAdvance true)
      exact ⟨defaultAdvance u, by rw [cycle_of_known hp hd, hu]; rfl⟩
  · exact ⟨_, cycle_of_not_fetchable hp⟩

theorem cycle_or_idle_answers (allowed : Prop) [Decidable allowed] (s : State) :
    ∃ t, (if allowed then cycle s else .next s) = .next t := by
  split
  · exact cycle_answers s
  · exact ⟨s, rfl⟩

theorem takeTurn_answers (turn : Turn) (s : State) : ∃ t, takeTurn turn s = .next t := by
  cases turn with
  | cycle | stepOnce => exact cycle_or_idle_answers _ s
  | _ => exact ⟨_, rfl⟩

/-- Settles O47: the step is a turn, a cycle, or idle, and each answers a next state. -/
theorem stepAlwaysAnswersANextState : Obligations.StepAlwaysAnswersANextState := by
  intro s
  unfold step nextTurn
  split
  · exact cycle_or_idle_answers _ s
  · exact takeTurn_answers _ _

/-! ### No instruction reads the control state -/

section setCtl
variable (c : Ctl) (s : State)

theorem skipIf_setCtl (skips : Bool) : skipIf skips (s.setCtl c) = (skipIf skips s).setCtl c := by
  cases skips <;> rfl

theorem defaultAdvance_setCtl : defaultAdvance (s.setCtl c) = (defaultAdvance s).setCtl c := by
  unfold defaultAdvance
  rw [apply_ite (State.setCtl · c)]
  rfl

theorem postIncrement_setCtl : postIncrement (s.setCtl c) = (postIncrement s).setCtl c := by
  unfold postIncrement
  rw [apply_ite (State.setCtl · c)]
  rfl

theorem memWrite_setCtl (a : Nat) (b : Byte) : memWrite a b (s.setCtl c) = (memWrite a b s).setCtl c := by
  unfold memWrite
  rw [apply_ite (State.setCtl · c)]
  rfl

theorem storeV_setCtl (k : Nat) : storeV (s.setCtl c) k = (storeV s k).setCtl c := by
  unfold storeV
  rw [← postIncrement_setCtl, ← memWrite_setCtl]
  rfl

theorem loadV_setCtl (k : Nat) : loadV (s.setCtl c) k = (loadV s k).setCtl c := by
  rw [loadV_eq, loadV_eq, ← postIncrement_setCtl, apply_ite (State.setCtl · c)]
  rfl

theorem xorPixel_setCtl (X : Fin 64) (Y : Fin 32) : xorPixel X Y (s.setCtl c) = (xorPixel X Y s).setCtl c := by
  unfold xorPixel
  rw [apply_ite (State.setCtl · c)]
  rfl

theorem drawBits_setCtl (b : Byte) (X0 Y : Nat) (js : List Nat) :
    drawBits b X0 Y js (s.setCtl c) = (drawBits b X0 Y js s).setCtl c := by
  induction js generalizing s with
  | nil => rfl
  | cons j js ih =>
    rw [drawBits, drawBits, State.setCtl_quirks]
    split
    · rfl
    · rw [← ih, xorPixel_setCtl, apply_ite (State.setCtl · c)]

theorem drawRow_setCtl (X0 Y0 i : Nat) : drawRow X0 Y0 (s.setCtl c) i = (drawRow X0 Y0 s i).setCtl c := by
  rw [drawRow_eq, drawRow_eq, apply_ite (State.setCtl · c), ← drawBits_setCtl]
  rfl

/-- Every instruction does the same in every control state, and keeps it (10_state.md R35). -/
theorem exec_setCtl (i : Instr) : exec i (s.setCtl c) = thenNext (exec i s) (State.setCtl · c) := by
  cases i with
  | ret =>
    show execRet _ = thenNext (execRet s) _
    unfold execRet
    rw [State.setCtl_stack]
    split <;> rfl
  | call nnn =>
    show execCall nnn _ = thenNext (execCall nnn s) _
    unfold execCall
    rw [thenNext_ite]
    rfl
  | seImm | sneImm | seReg | sneReg | skp | sknp => exact congrArg Host.Outcome.next (skipIf_setCtl ..)
  | shr x y =>
    rw [exec_shr_eq, exec_shr_eq]
    rfl
  | shl x y =>
    rw [exec_shl_eq, exec_shl_eq]
    rfl
  | ldVxK x =>
    show execLdVxK x _ = thenNext (execLdVxK x s) _
    unfold execLdVxK
    rw [show lowestKey (s.setCtl c) = lowestKey s from rfl]
    split <;> rfl
  | addI x =>
    show execAddI x _ = thenNext (execAddI x s) _
    unfold execAddI
    rw [thenNext_ite]
    rfl
  | ldB x =>
    simp only [exec, execLdB, thenNext, ← memWrite_setCtl]
    rfl
  | drw x y n =>
    exact congrArg Host.Outcome.next
      (List.foldl_hom (State.setCtl · c) (init := writeFlag 0 s) fun u k => drawRow_setCtl c u _ _ k)
  | ldMemVx x => exact congrArg Host.Outcome.next (List.foldl_hom (State.setCtl · c) fun u k => storeV_setCtl c u k)
  | ldVxMem x => exact congrArg Host.Outcome.next (List.foldl_hom (State.setCtl · c) fun u k => loadV_setCtl c u k)
  | _ => rfl

/-- A whole cycle does the same in every control state, and keeps it (40_cycle.md R120). -/
theorem cycle_setCtl : cycle (s.setCtl c) = thenNext (cycle s) (State.setCtl · c) := by
  by_cases hp : fetchable s.pc
  · cases hd : fetchDecode s with
    | unknown w =>
      rw [cycle_of_unknown (s := s.setCtl c) hp hd, cycle_of_unknown hp hd]
      exact congrArg Host.Outcome.next (defaultAdvance_setCtl c (execUnknown w (s.setAdvance true)))
    | known i =>
      obtain ⟨u, hu⟩ := exec_answers i (s.setAdvance true)
      have hu' : exec i ((s.setCtl c).setAdvance true) = .next (u.setCtl c) := by
        rw [show (s.setCtl c).setAdvance true = (s.setAdvance true).setCtl c from rfl, exec_setCtl, hu]
        rfl
      rw [cycle_of_known (s := s.setCtl c) hp hd, cycle_of_known hp hd, hu, hu']
      exact congrArg Host.Outcome.next (defaultAdvance_setCtl c u)
  · rw [cycle_of_not_fetchable (s := s.setCtl c) hp, cycle_of_not_fetchable hp]
    rfl

end setCtl

/-- A cycle keeps the control state: setting it to what it already is changes nothing before the cycle, nor after. -/
theorem cycle_ctl {s t : State} (h : cycle s = .next t) : t.ctl = s.ctl := by
  have hset : cycle (s.setCtl s.ctl) = .next (t.setCtl s.ctl) := by
    rw [cycle_setCtl, h]
    rfl
  have ht : t = t.setCtl s.ctl := Host.Outcome.next.inj (h.symm.trans hset)
  exact (congrArg State.ctl ht :)

/-- Settles O40: Step and the executor's turn in RUN run a cycle from states that differ in the control state alone. -/
theorem stepOnceIsOneCycle : Obligations.StepOnceIsOneCycle := by
  intro s rest hs hctl
  obtain ⟨t, ht⟩ := cycle_answers (s.setSchedule rest)
  refine ⟨t, (step_of_executorTurn (.inr (.inr ⟨rest, hs, hctl, rfl⟩))).trans ht, (cycle_ctl ht :), ?_⟩
  rw [step_of_executorTurn (s' := (s.setSchedule rest).setCtl .run) (.inr (.inl ⟨rest, rfl, rfl, rfl⟩)), cycle_setCtl, ht]
  rfl

/-! ### The turns that a control state allows -/

/-- The control states in which a turn has an effect: R315's transitions and the enabling of each agent. -/
def Turn.enabled (ctl : Ctl) : Turn → Prop
  | .cycle | .tick => ctl = .run
  | .start => ctl = .idle
  | .pauseResume => ctl = .run ∨ ctl = .pause
  | .stepOnce => ctl = .idle ∨ ctl = .pause
  | .romDeliver _ => ctl = .loading
  | .quirksWrite _ | .batchSizeWrite _ | .timerHzWrite _ => ctl = .idle
  | .keyWrite _ _ | .reset => True

theorem startCtl_eq (ctl : Ctl) : startCtl ctl = if ctl = .idle then .run else ctl := by
  cases ctl <;> rfl

theorem pauseResumeCtl_eq (ctl : Ctl) :
    pauseResumeCtl ctl = if ctl = .run then .pause else if ctl = .pause then .run else ctl := by
  cases ctl <;> rfl

/-- A turn that the control state does not allow has no effect (log 11). -/
theorem takeTurn_of_not_enabled {turn : Turn} {s : State} (h : ¬ turn.enabled s.ctl) : takeTurn turn s = .next s := by
  cases turn with
  | cycle | stepOnce => exact if_neg h
  | tick | romDeliver | quirksWrite | batchSizeWrite | timerHzWrite => exact congrArg Host.Outcome.next (if_neg h)
  | start =>
    have hidle : s.ctl ≠ .idle := h
    rw [takeTurn, startCtl_eq, if_neg hidle]
    rfl
  | pauseResume =>
    obtain ⟨hrun, hpause⟩ := not_or.mp h
    rw [takeTurn, pauseResumeCtl_eq, if_neg hrun, if_neg hpause]
    rfl
  | keyWrite | reset => exact absurd trivial h

/-- A step on such a turn takes it off the schedule and does nothing else (log 11). -/
theorem step_of_not_enabled {s : State} {turn : Turn} {rest : List Turn} (hs : s.schedule = turn :: rest)
    (h : ¬ turn.enabled s.ctl) : step s = .next (s.setSchedule rest) :=
  (step_of_schedule hs).trans (takeTurn_of_not_enabled h)

/-- With no turn left and not in RUN the machine idles (log 10). -/
theorem step_of_idle {s : State} (hs : s.schedule = []) (hctl : s.ctl ≠ .run) : step s = .next s := by
  rw [step, nextTurn, hs]
  exact if_neg hctl

theorem countDown_toNat (b : Byte) : (countDown b).toNat = b.toNat - 1 := by
  unfold countDown
  split <;> bv_omega

/-- Settles O38: in RUN the tick counts both timers down; elsewhere it is not enabled. -/
theorem timerTickCountsDown : Obligations.TimerTickCountsDown := by
  refine fun s rest hs => ⟨fun hrun => ?_, step_of_not_enabled hs⟩
  refine ⟨timerTick (s.setSchedule rest), ?_, countDown_toNat s.dt, countDown_toNat s.st, rfl⟩
  exact (step_of_schedule hs).trans (congrArg Host.Outcome.next (if_pos hrun))

/-- Settles O39: Start and Pause/Resume set the control state of R315, and the other turns here are not enabled. -/
theorem controlStateMachine : Obligations.ControlStateMachine := by
  refine fun s => ⟨fun rest hs => ?_, fun rest hs => ?_, fun rest hs hctl => ?_, fun rest hs hctl => ?_,
    fun rom rest hs hctl => step_of_not_enabled hs hctl, step_of_idle⟩
  · rw [step_of_schedule hs, takeTurn, startCtl_eq]
    rfl
  · rw [step_of_schedule hs, takeTurn, pauseResumeCtl_eq]
    rfl
  · rcases hs with hs | hs
    · exact step_of_not_enabled hs hctl
    · exact step_of_not_enabled hs hctl
  · refine step_of_not_enabled hs ?_
    rcases hctl with hctl | hctl <;> simp [Turn.enabled, hctl]

/-- In PAUSE only Pause/Resume, Step, Reset and a key write have an effect (R316). -/
theorem enabled_pause {turn : Turn} (h : turn.enabled .pause) :
    turn = .pauseResume ∨ turn = .stepOnce ∨ turn = .reset ∨ ∃ k pressed, turn = .keyWrite k pressed := by
  cases turn with
  | pauseResume => exact .inl rfl
  | stepOnce => exact .inr (.inl rfl)
  | reset => exact .inr (.inr (.inl rfl))
  | keyWrite k pressed => exact .inr (.inr (.inr ⟨k, pressed, rfl⟩))
  | cycle | tick | start | romDeliver | quirksWrite | batchSizeWrite | timerHzWrite => cases h

/-- Settles O41: PAUSE idles without a turn, drops the turns that it does not enable, and a key write sets KEY alone. -/
theorem pauseFreezesTheMachine : Obligations.PauseFreezesTheMachine := by
  intro s hctl
  refine ⟨fun hs => step_of_idle hs (by simp [hctl]), fun turn rest hs hresume hstep hreset hkey => ?_,
    fun k pressed rest hs => ⟨_, step_of_schedule hs, rfl⟩⟩
  refine step_of_not_enabled hs fun hen => ?_
  rcases enabled_pause (hctl ▸ hen) with h | h | h | ⟨k, pressed, h⟩
  · exact hresume h
  · exact hstep h
  · exact hreset h
  · exact hkey k pressed h

end Sys2Proof.Machine

/-! Proofs about the words that the spec writes out (30_encoding.md), a fetch that does not fit (40_cycle.md) and the ROM copy
(70_reset_and_hazards.md). -/

namespace Sys2Proof.Machine

/-! ### Words that the spec writes out -/

/-- Settles O4: eight of the words are the encodings of the instructions they stand for, and no row of the opcode table
accepts the other two. -/
theorem specWordsDecodeAsWritten : Obligations.SpecWordsDecodeAsWritten := by
  obtain ⟨noRow, -, -⟩ := decoderAgreesWithTheOpcodeTable
  exact ⟨decodeInvertsEncode (.drw 0 1 5) rfl, decodeInvertsEncode (.call 0x204) rfl,
    decodeInvertsEncode (.jpOff 0x234 0x2 0x34) rfl, decodeInvertsEncode (.seImm 3 0x42) rfl,
    decodeInvertsEncode (.shl 0 1) rfl, decodeInvertsEncode (.rnd 1 0x0F) rfl, decodeInvertsEncode (.ldMemVx 1) rfl,
    decodeInvertsEncode (.sknp 0) rfl, noRow 0x5121 (by decide), noRow 0x0000 (by decide)⟩

/-! ### A fetch that does not fit -/

/-- On the executor's turn a pc past 0xFFE is recorded and passed over (40_cycle.md R122). -/
theorem step_of_not_fetchable {s s' : State} (turn : executorTurn s s') (hp : ¬ fetchable s.pc) :
    step s = .next (fetchFails (s'.setAdvance true)) := by
  have hpc : s'.pc = s.pc := by rw [executorTurn_frame turn]
  rw [step_of_executorTurn turn]
  exact cycle_of_not_fetchable (hpc ▸ hp)

/-- Settles O6: the event and the new pc are those of `fetchFails`, on a state whose pc and events the taken turn left. -/
theorem fetchOutOfBoundsIsANoOpCycle : Obligations.FetchOutOfBoundsIsANoOpCycle := by
  intro s s' turn hp
  rw [step_of_not_fetchable turn (Nat.not_le.mpr hp), executorTurn_frame turn]
  rfl

/-! ### The ROM copy -/

/-- In LOADING a delivered ROM is loaded (R341). -/
theorem step_of_romDeliver {s : State} {rom : List Byte} {rest : List Turn} (hs : s.schedule = .romDeliver rom :: rest)
    (hctl : s.ctl = .loading) : step s = .next (loadRom rom (s.setSchedule rest)) :=
  (step_of_schedule hs).trans (congrArg Host.Outcome.next (if_pos hctl))

/-- Settles O45: the bytes and the events are those of the copy from 0x200, which the new control state does not touch. -/
theorem romCopyFillsProgramMemory : Obligations.RomCopyFillsProgramMemory := by
  intro s rom rest hs hctl
  obtain ⟨hcopied, hkept, hdiags, -⟩ := romCopy_spec rom 0x200 (s.setSchedule rest)
  exact ⟨loadRom rom (s.setSchedule rest), step_of_romDeliver hs hctl, hcopied, hkept, hdiags, loadRom_frame rom _⟩

end Sys2Proof.Machine
